-- ==== Sys2Proof/Word.lean ====
section
/-! DEFINITION. The machine's bytes and words (spec/00_scope.md R8) and the twelve register names
(spec/10_state.md R20, R21). -/

namespace Sys2Proof

/-- A byte, the spec's `u8` (R8). -/
abbrev Byte := BitVec 8

/-- A word, the spec's `u16`: register values, literals and program-visible addresses (R8, R20). -/
abbrev Word := BitVec 16

/-- The twelve registers, in the fixed declaration order (R20, R21). -/
inductive Reg where
  | ip | acc | r1 | r2 | r3 | r4 | r5 | r6 | r7 | r8 | sp | fp
deriving DecidableEq, Repr

end Sys2Proof
end

