-- ==== Sys2Proof/Config.lean ====
section
/-! DEFINITION. The two parameters of an engine (spec/00_scope.md R6), fixed at construction
(spec/70_reset_and_hazards.md R180). There is no free value: spec/93_implementation_defined.md says
that nothing in the engine is a draw. -/

namespace Sys2Proof

/-- What an implementation fixes: the memory size and the first opcode value (R6). -/
structure Config where
  memSize    : Nat
  opcodeBase : Nat
deriving DecidableEq, Repr

/-- The constraints R6 puts on the two parameters: MEM_SIZE even, 2 to 65536; OPCODE_BASE at most 247. -/
abbrev Config.wf (c : Config) : Prop :=
  c.memSize % 2 = 0 ∧ 2 ≤ c.memSize ∧ c.memSize ≤ 65536 ∧ c.opcodeBase ≤ 247

/-- The spec's defaults. MEM_SIZE: DESIGN CHOICE of the spec (D1), log entry 2. OPCODE_BASE: PRESUMED,
the spec takes 0x10 from general knowledge (D2, G1), log entry 3. Unsafe for a claim that uses them. -/
def Config.default : Config := { memSize := 65536, opcodeBase := 0x10 }

end Sys2Proof
end

