-- ==== Sys2Proof/Machine/State.lean ====
section
/-! DEFINITION. The engine's state as plain data (spec/10_state.md): twelve registers, memory, and the
two construction parameters; the faults; and the state after reset (R32). -/

namespace Sys2Proof.Machine

/-- The register file: twelve unsigned 16-bit registers under their own names (R20, R21; log entry 14). -/
structure Regs where
  ip  : Word
  acc : Word
  r1  : Word
  r2  : Word
  r3  : Word
  r4  : Word
  r5  : Word
  r6  : Word
  r7  : Word
  r8  : Word
  sp  : Word
  fp  : Word
deriving DecidableEq, Repr

/-- Memory: cells of strictly rising address, none holding what an unlisted address reads as
(R27; log entry 15). -/
abbrev Memory := List Host.Cell

/-- The state of one engine: "(Memory, Registers)" (R31), beside the parameters it was constructed with,
which no step changes (R6, R180; log entry 1). -/
structure State where
  cfg  : Config
  regs : Regs
  mem  : Memory
deriving DecidableEq, Repr

/-- The kind of access an AddressError reports (spec/60_exceptions.md R160). -/
inductive AccessKind where
  | fetch | read | write
deriving DecidableEq, Repr

/-- The spec's two errors (spec/60_exceptions.md R160, R163). -/
inductive Fault where
  /-- Raised by every memory access whose range is not inside memory (R41, R42, R160): its first address,
  its length in bytes and its kind. Safe: the spec itself ends the step here and no next state exists. -/
  | addressError (addr n : Nat) (kind : AccessKind)
  /-- Raised by the driver's READ_REG only (R146, R163), never by a step: the offending selector. Safe. -/
  | unknownRegister (selector : Nat)
deriving DecidableEq, Repr

/-- What the model gives no meaning to. No step of this model is refused. -/
inductive Refusal where
  /-- Raised by an arm of exec whose instruction has no meaning yet; no arm is left so. Safe. -/
  | notModelled (mnemonic : String)
  /-- Raised by the driver's LOAD after a first STEP, which R142 puts out of contract. Safe. -/
  | loadAfterFirstStep
  /-- Raised by the driver's RESET when the parameters break the constraints of R6. Safe. -/
  | badConfiguration
deriving DecidableEq, Repr

/-- What a step or an instruction's meaning answers. -/
abbrev Result := Host.Outcome State Fault Refusal

/-- The state right after construction with the given parameters (R32, R180): every register zero but SP
and FP, which hold MEM_SIZE - 2; every byte of memory zero, so nothing is listed. -/
def State.resetWith (c : Config) : State where
  cfg := c
  regs :=
    { ip := 0, acc := 0, r1 := 0, r2 := 0, r3 := 0, r4 := 0, r5 := 0, r6 := 0, r7 := 0, r8 := 0
      sp := BitVec.ofNat 16 (c.memSize - 2), fp := BitVec.ofNat 16 (c.memSize - 2) }
  mem := []

/-- The machine right after reset, at the spec's default parameters (R6; log entries 2, 3). -/
def State.reset : State := State.resetWith Config.default

end Sys2Proof.Machine
end

