-- ==== Sys2Proof/Machine/Flags.lean ====
section
/-! DEFINITION. The engine has no flags, no condition codes and no predicate registers
(spec/10_state.md R28), so there is no flag to compute. What other machines do with flags this one does
with the two computations below: an addition whose carry is kept nowhere, and a comparison made by the
jump itself. -/

namespace Sys2Proof.Machine

/-- `a +16 b`: the sum modulo 65536, the carry out of bit 15 discarded (R8, R110, R111). -/
def add16 (a b : Word) : Word := a + b

/-- The condition of JMP_NOT_EQ: equality of two unsigned 16-bit values, negated (R120). -/
def jumpTaken (value acc : Word) : Bool := value != acc

end Sys2Proof.Machine
end

