-- ==== Sys2Proof/Syntax.lean ====
section
/-! DEFINITION. The instruction set: one constructor for each row of spec/opcode_table.json
(spec/30_encoding.md R63, R66, R67). Operands stand in fetch order. -/

namespace Sys2Proof

/-- The nine declared instructions and the unrecognised opcode. A register operand is the register the
operand byte names (R61); which bytes name it is the decoder's business. -/
inductive Instr where
  | movLitReg (lit : Word) (r : Reg)        -- MOV_LIT_REG, R100
  | movRegReg (src dst : Reg)               -- MOV_REG_REG, R101
  | movRegMem (r : Reg) (addr : Word)       -- MOV_REG_MEM, R102
  | movMemReg (addr : Word) (r : Reg)       -- MOV_MEM_REG, R103
  | addRegReg (ra rb : Reg)                 -- ADD_REG_REG, R110
  | jmpNotEq (value addr : Word)            -- JMP_NOT_EQ, R120
  | pshLit (lit : Word)                     -- PSH_LIT, R130
  | pshReg (r : Reg)                        -- PSH_REG, R131
  | pop (r : Reg)                           -- POP, R132
  | unrecognised (op : Byte)                -- any other opcode byte, R67, R88
deriving DecidableEq, Repr

end Sys2Proof
end

