-- ==== Sys2Proof/WellFormed.lean ====
section
/-! DEFINITION. Well-formed instructions. Every literal, address and register operand is legal
(spec/30_encoding.md R69), so the one check is that an `unrecognised` opcode is indeed none of the nine
declared values (R66, R67), which depends on OPCODE_BASE. -/

namespace Sys2Proof

/-- `op` is one of the nine consecutive declared opcode values (R66). -/
abbrev declaredOpcode (base : Nat) (op : Byte) : Prop := base ≤ op.toNat ∧ op.toNat ≤ base + 8

/-- An instruction of an engine whose OPCODE_BASE is `base`. -/
def Instr.wf (base : Nat) : Instr → Bool
  | .movLitReg _ _   => true
  | .movRegReg _ _   => true
  | .movRegMem _ _   => true
  | .movMemReg _ _   => true
  | .addRegReg _ _   => true
  | .jmpNotEq _ _    => true
  | .pshLit _        => true
  | .pshReg _        => true
  | .pop _           => true
  | .unrecognised op => decide (¬ declaredOpcode base op)

end Sys2Proof
end

