-- ==== Sys2Proof/Decode.lean ====
section
/-! DEFINITION. From bytes to an instruction and back (spec/30_encoding.md). The decoder is total: no
encoding is rejected (R69); a byte list is refused, by name, only when it ends before the instruction
does. The encoder is written from the same tables (R61, R63, R66). -/

namespace Sys2Proof

/-! ### Bytes, words and register numbers -/

/-- `hi ++ lo`, big-endian: the byte at the lower address is bits 15:8 (R8, R43, R62). -/
def wordOfBytes (hi lo : Byte) : Word := hi ++ lo

/-- Bits 15:8 of a word. -/
def highByte (w : Word) : Byte := w.extractLsb' 8 8

/-- Bits 7:0 of a word. -/
def lowByte (w : Word) : Byte := w.extractLsb' 0 8

/-- A register's number, its position in the declaration order (R21). -/
def Reg.number : Reg → Nat
  | .ip => 0 | .acc => 1 | .r1 => 2 | .r2 => 3 | .r3 => 4 | .r4 => 5
  | .r5 => 6 | .r6 => 7 | .r7 => 8 | .r8 => 9 | .sp => 10 | .fp => 11

/-- The register with the given number, for numbers below 12. -/
def Reg.ofNumber : Nat → Reg
  | 0 => .ip | 1 => .acc | 2 => .r1 | 3 => .r2 | 4 => .r3 | 5 => .r4
  | 6 => .r5 | 7 => .r6 | 8 => .r7 | 9 => .r8 | 10 => .sp | _ => .fp

/-- The register a register-index byte names: the byte modulo 12 (R61, R83; log entry 6). -/
def Reg.ofByte (b : Byte) : Reg := Reg.ofNumber (b.toNat % 12)

/-- The canonical register-index byte (R61). -/
def Reg.toByte (r : Reg) : Byte := BitVec.ofNat 8 r.number

/-! ### Layouts -/

/-- The two kinds of operand field (R60): a register-index byte and a 16-bit word. -/
inductive OperandKind where
  | reg8
  | word16
deriving DecidableEq, Repr

/-- Bytes an operand takes (R60). -/
def OperandKind.size : OperandKind → Nat
  | .reg8   => 1
  | .word16 => 2

/-- k of R66 for a declared opcode; none for an unrecognised one (R67, R86; order: log entry 4). -/
def opcodeOffset (base : Nat) (op : Byte) : Option Nat :=
  if base ≤ op.toNat ∧ op.toNat ≤ base + 8 then some (op.toNat - base) else none

/-- The operands of an opcode in fetch order (R63, R66): formats WR, RR, RW, WR, RR, WW, W, R, R, and N
for every other byte. -/
def layout (base : Nat) (op : Byte) : List OperandKind :=
  match opcodeOffset base op with
  | some 0 => [.word16, .reg8]
  | some 1 => [.reg8, .reg8]
  | some 2 => [.reg8, .word16]
  | some 3 => [.word16, .reg8]
  | some 4 => [.reg8, .reg8]
  | some 5 => [.word16, .word16]
  | some 6 => [.word16]
  | some 7 => [.reg8]
  | some 8 => [.reg8]
  | _      => []

/-- Bytes a list of operands takes. -/
def sizeOfOperands : List OperandKind → Nat
  | []      => 0
  | k :: ks => k.size + sizeOfOperands ks

/-- Length of an instruction, known from byte 0 alone (R64). -/
def instrLength (base : Nat) (op : Byte) : Nat := 1 + sizeOfOperands (layout base op)

/-! ### The decoder -/

/-- The instruction that an opcode byte and its operand bytes stand for (R63, R66, R67, R86). Total;
operand bytes past the instruction's length are not looked at. -/
def decodeOperands (base : Nat) (op : Byte) (bs : List Byte) : Instr :=
  match opcodeOffset base op with
  | some 0 => .movLitReg (wordOfBytes (bs.getD 0 0) (bs.getD 1 0)) (Reg.ofByte (bs.getD 2 0))
  | some 1 => .movRegReg (Reg.ofByte (bs.getD 0 0)) (Reg.ofByte (bs.getD 1 0))
  | some 2 => .movRegMem (Reg.ofByte (bs.getD 0 0)) (wordOfBytes (bs.getD 1 0) (bs.getD 2 0))
  | some 3 => .movMemReg (wordOfBytes (bs.getD 0 0) (bs.getD 1 0)) (Reg.ofByte (bs.getD 2 0))
  | some 4 => .addRegReg (Reg.ofByte (bs.getD 0 0)) (Reg.ofByte (bs.getD 1 0))
  | some 5 => .jmpNotEq (wordOfBytes (bs.getD 0 0) (bs.getD 1 0))
                (wordOfBytes (bs.getD 2 0) (bs.getD 3 0))
  | some 6 => .pshLit (wordOfBytes (bs.getD 0 0) (bs.getD 1 0))
  | some 7 => .pshReg (Reg.ofByte (bs.getD 0 0))
  | some 8 => .pop (Reg.ofByte (bs.getD 0 0))
  | _      => .unrecognised op

/-- Why a byte list is not an instruction: it is shorter than the instruction. -/
inductive DecodeError where
  /-- `needed` bytes make the instruction, `given` were there. -/
  | truncated (needed given : Nat)
deriving DecidableEq, Repr

/-- Decode the instruction at the head of a byte list, with the bytes that follow it. -/
def decode (base : Nat) : List Byte → Except DecodeError (Instr × List Byte)
  | []         => .error (.truncated 1 0)
  | op :: rest =>
    if sizeOfOperands (layout base op) ≤ rest.length then
      .ok (decodeOperands base op rest, rest.drop (sizeOfOperands (layout base op)))
    else .error (.truncated (instrLength base op) (rest.length + 1))

/-! ### The encoder -/

/-- The opcode byte OPCODE_BASE + k (R66). -/
def opcodeByte (base k : Nat) : Byte := BitVec.ofNat 8 (base + k)

/-- A 16-bit operand's two bytes, most significant first (R62). -/
def wordBytes (w : Word) : List Byte := [highByte w, lowByte w]

/-- The bytes of an instruction, register operands in their canonical form (R61, R63, R66). -/
def encode (base : Nat) : Instr → List Byte
  | .movLitReg lit r => opcodeByte base 0 :: wordBytes lit ++ [r.toByte]
  | .movRegReg src dst => [opcodeByte base 1, src.toByte, dst.toByte]
  | .movRegMem r a => opcodeByte base 2 :: r.toByte :: wordBytes a
  | .movMemReg a r => opcodeByte base 3 :: wordBytes a ++ [r.toByte]
  | .addRegReg ra rb => [opcodeByte base 4, ra.toByte, rb.toByte]
  | .jmpNotEq v a => opcodeByte base 5 :: wordBytes v ++ wordBytes a
  | .pshLit lit => opcodeByte base 6 :: wordBytes lit
  | .pshReg r => [opcodeByte base 7, r.toByte]
  | .pop r => [opcodeByte base 8, r.toByte]
  | .unrecognised op => [op]

/-! ### The table's numbering of an instruction's bits -/

/-- The five bytes (the longest instruction, R60) of a number whose bits 7:0 are byte 0, bits 15:8 byte 1,
and so on; bits from `nbits` up are zero. -/
def tableBytes (nbits w : Nat) : List Byte :=
  [BitVec.ofNat 8 (w % 2 ^ nbits), BitVec.ofNat 8 (w % 2 ^ nbits / 2 ^ 8),
   BitVec.ofNat 8 (w % 2 ^ nbits / 2 ^ 16), BitVec.ofNat 8 (w % 2 ^ nbits / 2 ^ 24),
   BitVec.ofNat 8 (w % 2 ^ nbits / 2 ^ 32)]

/-- What the decoder reads from an instruction given as the opcode table numbers its bits, at the
default OPCODE_BASE at which the table's `match` values are given (R71). -/
def decodeTableWord (nbits w : Nat) : Option Instr :=
  match decode Config.default.opcodeBase (tableBytes nbits w) with
  | .ok (i, _) => some i
  | .error _   => none

end Sys2Proof
end

