-- ==== Sys2Proof/Machine/Operands.lean ====
section
/-! DEFINITION. Register operands: the one place registers are read and written (spec/10_state.md R20).
No register is hard-wired, banked or shadowed. -/

namespace Sys2Proof.Machine

/-- `x[r]` (R20). -/
def Regs.get (g : Regs) : Reg → Word
  | .ip => g.ip | .acc => g.acc | .r1 => g.r1 | .r2 => g.r2 | .r3 => g.r3 | .r4 => g.r4
  | .r5 => g.r5 | .r6 => g.r6 | .r7 => g.r7 | .r8 => g.r8 | .sp => g.sp | .fp => g.fp

/-- `x[r] <- v` (R20). -/
def Regs.set (g : Regs) (r : Reg) (v : Word) : Regs :=
  match r with
  | .ip  => { g with ip := v }
  | .acc => { g with acc := v }
  | .r1  => { g with r1 := v }
  | .r2  => { g with r2 := v }
  | .r3  => { g with r3 := v }
  | .r4  => { g with r4 := v }
  | .r5  => { g with r5 := v }
  | .r6  => { g with r6 := v }
  | .r7  => { g with r7 := v }
  | .r8  => { g with r8 := v }
  | .sp  => { g with sp := v }
  | .fp  => { g with fp := v }

/-- Read a register of the machine. -/
def State.reg (s : State) (r : Reg) : Word := s.regs.get r

/-- Write a register of the machine. -/
def State.setReg (s : State) (r : Reg) (v : Word) : State := { s with regs := s.regs.set r v }

/-- The register file as the private backing array of R22: register i is bytes 2i (high) and 2i + 1 (low).
A computed view; the twelve words are what is stored (D25, log entry 14). -/
def Regs.backing (g : Regs) : List Byte :=
  [Reg.ip, .acc, .r1, .r2, .r3, .r4, .r5, .r6, .r7, .r8, .sp, .fp].flatMap
    fun r => [highByte (g.get r), lowByte (g.get r)]

/-- The storage offset a register-index byte selects (R22, R83). -/
def storageOffset (b : Byte) : Nat := 2 * (Reg.ofByte b).number

end Sys2Proof.Machine
end

