-- ==== Sys2Proof/Machine/Arithmetic.lean ====
section
/-! DEFINITION. ADD_REG_REG, the only arithmetic instruction (spec/42_arithmetic.md). -/

namespace Sys2Proof.Machine

/-- ADD_REG_REG (R110): `ACC <- x[ra] +16 x[rb]`, both sources read before ACC is written. -/
def execAddRegReg (ra rb : Reg) (s : State) : Result :=
  .next (s.setReg .acc (add16 (s.reg ra) (s.reg rb)))

end Sys2Proof.Machine
end

