-- ==== Sys2Proof/Machine/ControlTransfer.lean ====
section
/-! DEFINITION. JMP_NOT_EQ (spec/43_control_transfer.md) and the unrecognised opcode
(spec/40_step_cycle.md R88). -/

namespace Sys2Proof.Machine

/-- JMP_NOT_EQ (R120): `if v != ACC then IP <- a`; otherwise IP stays past the instruction. -/
def execJmpNotEq (value addr : Word) (s : State) : Result :=
  .next (if jumpTaken value (s.reg .acc) then s.setReg .ip addr else s)

/-- An unrecognised opcode (R88): no operation; IP was advanced by the fetch (log entry 5). -/
def execUnrecognised (_op : Byte) (s : State) : Result := .next s

end Sys2Proof.Machine
end

