-- ==== Sys2Proof/Machine/Ops.lean ====
section
/-! DEFINITION. The operations every meaning is written in: raising an error (spec/60_exceptions.md R161),
the four memory accessors (spec/20_memory.md R40 to R42) and the two stack primitives
(spec/40_step_cycle.md R84, R85). -/

namespace Sys2Proof.Machine

/-! ### Memory as a canonical list -/

/-- What an address that is not listed reads as: memory is zero-initialized (R27, R32). -/
def unlistedByte : Byte := 0

/-- `M[a]`: the byte at an address (R27). -/
def Memory.byteAt : Memory → Nat → Byte
  | [], _ => unlistedByte
  | (b, v) :: m, a => if b = a then v else Memory.byteAt m a

/-- Put a cell in front of the first cell of a higher address. -/
def Memory.insert (a : Nat) (v : Byte) : Memory → Memory
  | [] => [(a, v)]
  | (b, w) :: m => if a < b then (a, v) :: (b, w) :: m else (b, w) :: Memory.insert a v m

/-- Drop every cell of an address. -/
def Memory.erase (m : Memory) (a : Nat) : Memory := m.filter fun c => c.1 != a

/-- `M[a] <- v`: the cell of `a` is replaced, and left out if it would hold the unlisted byte. -/
def Memory.setByte (m : Memory) (a : Nat) (v : Byte) : Memory :=
  if v = unlistedByte then m.erase a else Memory.insert a v (m.erase a)

/-- The canonical form: addresses strictly rising, no cell holding the unlisted byte. -/
def Memory.wf : Memory → Bool
  | [] => true
  | [(_, v)] => v != unlistedByte
  | (a, v) :: (b, w) :: m => v != unlistedByte && decide (a < b) && Memory.wf ((b, w) :: m)

/-- Every listed address exists: it is below `n`. -/
def Memory.below (m : Memory) (n : Nat) : Bool := m.all fun c => decide (c.1 < n)

/-- The byte of memory at an address. -/
def State.byteAt (s : State) (a : Nat) : Byte := s.mem.byteAt a

/-- The state with one byte of memory changed. -/
def State.setByte (s : State) (a : Nat) (v : Byte) : State := { s with mem := s.mem.setByte a v }

/-! ### Errors -/

/-- `raise AddressError(addr, n, kind)` (R161). Nothing inside the machine is entered: there is no handler,
no saved register, no change of mode. The step answers the error and no next state, so the state before
the step stands (R162; log entries 12, 13). -/
def raiseAddressError {α : Type} (addr n : Nat) (kind : AccessKind) : Except Fault α :=
  .error (.addressError addr n kind)

/-- Go on with a value, or end the step with the error that was raised. -/
def orFault {α : Type} (x : Except Fault α) (k : α → Result) : Result :=
  match x with
  | .ok v    => k v
  | .error f => .fault f

/-! ### The memory accessors -/

/-- The bounds check of R41 and R42, over unbounded integers: `addr + n <= MEM_SIZE` (log entry 7). -/
def State.inRange (s : State) (addr n : Nat) : Bool := decide (addr + n ≤ s.cfg.memSize)

/-- `MemRead(addr, 1)` (R41). The kind is the caller's (C11). -/
def read8 (s : State) (kind : AccessKind) (addr : Nat) : Except Fault Byte :=
  if s.inRange addr 1 then .ok (s.byteAt addr) else raiseAddressError addr 1 kind

/-- `MemRead(addr, 2)`, big-endian (R41, R43). -/
def read16 (s : State) (kind : AccessKind) (addr : Nat) : Except Fault Word :=
  if s.inRange addr 2 then .ok (wordOfBytes (s.byteAt addr) (s.byteAt (addr + 1)))
  else raiseAddressError addr 2 kind

/-- `MemWrite(addr, 1, v)` (R42), used by the driver's LOAD only (R40). -/
def write8 (s : State) (addr : Nat) (v : Byte) : Except Fault State :=
  if s.inRange addr 1 then .ok (s.setByte addr v) else raiseAddressError addr 1 .write

/-- `MemWrite(addr, 2, v)`, big-endian; the check precedes both byte writes (R42, R43). -/
def write16 (s : State) (addr : Nat) (v : Word) : Except Fault State :=
  if s.inRange addr 2 then .ok ((s.setByte addr (highByte v)).setByte (addr + 1) (lowByte v))
  else raiseAddressError addr 2 .write

/-! ### The stack primitives -/

/-- `Push(v)` (R84): write at SP, then decrement SP by 2, modulo 65536 (log entry 9). -/
def push (s : State) (v : Word) : Except Fault State :=
  match write16 s (s.reg .sp).toNat v with
  | .ok t    => .ok (t.setReg .sp (t.reg .sp - 2))
  | .error f => .error f

/-- `Pop()` (R85): increment SP by 2, modulo 65536, then read at the new SP (log entry 9). -/
def popWord (s : State) : Except Fault (Word × State) :=
  match read16 (s.setReg .sp (s.reg .sp + 2)) .read (s.reg .sp + 2).toNat with
  | .ok v    => .ok (v, s.setReg .sp (s.reg .sp + 2))
  | .error f => .error f

/-! ### Placing bytes from outside -/

/-- Place bytes at consecutive addresses from `a` on, as the fetch would meet them: addresses go on modulo
65536, and a byte whose address does not exist is left out (log entry 22). -/
def placeBytes : List Byte → Word → State → State
  | [], _, s => s
  | b :: bs, a, s =>
    placeBytes bs (a + 1) (if s.inRange a.toNat 1 then s.setByte a.toNat b else s)

end Sys2Proof.Machine
end

