-- ==== Sys2Proof/Machine/DataMovement.lean ====
section
/-! DEFINITION. MOV_LIT_REG, MOV_REG_REG, MOV_REG_MEM, MOV_MEM_REG (spec/41_data_movement.md). A meaning is
the second phase of R87: every operand is fetched and IP already addresses the next instruction. -/

namespace Sys2Proof.Machine

/-- MOV_LIT_REG (R100): `x[r] <- lit`. -/
def execMovLitReg (lit : Word) (r : Reg) (s : State) : Result := .next (s.setReg r lit)

/-- MOV_REG_REG (R101): `x[dst] <- x[src]`. -/
def execMovRegReg (src dst : Reg) (s : State) : Result := .next (s.setReg dst (s.reg src))

/-- MOV_REG_MEM (R102): `MemWrite(a, 2, x[r])`. -/
def execMovRegMem (r : Reg) (a : Word) (s : State) : Result :=
  orFault (write16 s a.toNat (s.reg r)) fun t => .next t

/-- MOV_MEM_REG (R103): `x[r] <- MemRead(a, 2)`. -/
def execMovMemReg (a : Word) (r : Reg) (s : State) : Result :=
  orFault (read16 s .read a.toNat) fun v => .next (s.setReg r v)

end Sys2Proof.Machine
end

