-- ==== Sys2Proof/Machine/Stack.lean ====
section
/-! DEFINITION. PSH_LIT, PSH_REG, POP (spec/44_stack.md). -/

namespace Sys2Proof.Machine

/-- PSH_LIT (R130): `Push(lit)`. -/
def execPshLit (lit : Word) (s : State) : Result := orFault (push s lit) fun t => .next t

/-- PSH_REG (R131): `Push(x[r])`, the register read before SP moves. -/
def execPshReg (r : Reg) (s : State) : Result := orFault (push s (s.reg r)) fun t => .next t

/-- POP (R132): `x[r] <- Pop()`, written after SP was incremented. -/
def execPop (r : Reg) (s : State) : Result :=
  orFault (popWord s) fun p => .next (p.2.setReg r p.1)

end Sys2Proof.Machine
end

