-- ==== Sys2Proof/Machine/Dispatch.lean ====
section
/-! DEFINITION. One arm for each constructor of Instr (spec/40_step_cycle.md R86). -/

namespace Sys2Proof.Machine

/-- The effect of an instruction whose bytes have all been fetched (R87). -/
def exec (i : Instr) (s : State) : Host.Outcome State Fault Refusal :=
  match i with
  | .movLitReg lit r => Sys2Proof.Machine.execMovLitReg lit r s
  | .movRegReg src dst => Sys2Proof.Machine.execMovRegReg src dst s
  | .movRegMem r a => Sys2Proof.Machine.execMovRegMem r a s
  | .movMemReg a r => Sys2Proof.Machine.execMovMemReg a r s
  | .addRegReg ra rb => Sys2Proof.Machine.execAddRegReg ra rb s
  | .jmpNotEq v a => Sys2Proof.Machine.execJmpNotEq v a s
  | .pshLit lit => Sys2Proof.Machine.execPshLit lit s
  | .pshReg r => Sys2Proof.Machine.execPshReg r s
  | .pop r => Sys2Proof.Machine.execPop r s
  | .unrecognised op => Sys2Proof.Machine.execUnrecognised op s

end Sys2Proof.Machine
end

