-- ==== Sys2Proof/Machine/Fetch.lean ====
section
/-! DEFINITION. Fetching (spec/40_step_cycle.md R80 to R83, R87): the opcode byte, then every operand of
its layout in order, each one bounds-checked access that advances IP. -/

namespace Sys2Proof.Machine

/-- `Fetch8()` (R81): one byte at IP, then IP advances by 1, modulo 65536 (log entry 8). -/
def fetch8 (s : State) : Except Fault (Byte × State) :=
  match read8 s .fetch (s.reg .ip).toNat with
  | .ok b    => .ok (b, s.setReg .ip (s.reg .ip + 1))
  | .error f => .error f

/-- `Fetch16()` (R82): one 2-byte read at IP, then IP advances by 2, modulo 65536 (log entry 8). -/
def fetch16 (s : State) : Except Fault (Word × State) :=
  match read16 s .fetch (s.reg .ip).toNat with
  | .ok w    => .ok (w, s.setReg .ip (s.reg .ip + 2))
  | .error f => .error f

/-- Fetch one operand and give its bytes in ascending address order: a register-index byte by `Fetch8`
(the reduction of R83 is the decoder's), a word by `Fetch16`. -/
def fetchOperand (k : OperandKind) (s : State) : Except Fault (List Byte × State) :=
  match k with
  | .reg8 =>
    match fetch8 s with
    | .ok (b, t) => .ok ([b], t)
    | .error f   => .error f
  | .word16 =>
    match fetch16 s with
    | .ok (w, t) => .ok (wordBytes w, t)
    | .error f   => .error f

/-- Fetch operands in order (R87). -/
def fetchOperands : List OperandKind → State → Except Fault (List Byte × State)
  | [], s => .ok ([], s)
  | k :: ks, s =>
    match fetchOperand k s with
    | .error f => .error f
    | .ok (b, t) =>
      match fetchOperands ks t with
      | .error f    => .error f
      | .ok (bs, u) => .ok (b ++ bs, u)

/-- Fetch and decode the instruction at IP; the state answered has IP past its last byte (R23, R80, R87).
No operand's value is read as data here (log entry 10). -/
def fetchInstr (s : State) : Except Fault (Instr × State) :=
  match fetch8 s with
  | .error f => .error f
  | .ok (op, t) =>
    match fetchOperands (layout s.cfg.opcodeBase op) t with
    | .error f    => .error f
    | .ok (bs, u) => .ok (decodeOperands s.cfg.opcodeBase op bs, u)

end Sys2Proof.Machine
end

