-- ==== Sys2Proof/Machine/Step.lean ====
section
/-! DEFINITION. The engine's one operation, `step` (spec/40_step_cycle.md R80). -/

namespace Sys2Proof.Machine

/-- Fetch one instruction at IP, then execute it (R80). A raise anywhere ends the step with the error and
no next state: the state before the step stands (R162; log entry 13). -/
def step (s : State) : Host.Outcome State Fault Refusal :=
  orFault (fetchInstr s) fun p => exec p.1 p.2

/-- The state with an instruction's bytes placed at IP, where `step` fetches its opcode. It stands for the
LOADs of a program from outside the machine (spec/45_host_interface.md R142; log entry 22). -/
def State.withFetchWord (s : State) (nbits w : Nat) : State :=
  placeBytes (tableBytes nbits w) (s.reg .ip) s

end Sys2Proof.Machine
end

