-- ==== Sys2Proof/Machine/Driver.lean ====
section
/-! DEFINITION. The driver's five transactions (spec/45_host_interface.md R140 to R149). They are not
instructions; they act on an engine between steps. -/

namespace Sys2Proof.Machine

/-- An engine in the hands of its driver: `stepped` says whether a first STEP has been triggered, which ends
the time in which LOAD is in contract (R142; log entry 16). -/
structure Session where
  machine : State
  stepped : Bool
deriving DecidableEq, Repr

/-- The transactions on an existing engine (R141). -/
inductive Transaction where
  | load (a : Nat) (v : Byte)
  | step
  | readReg (selector : Nat)
  | readMem (a n : Nat)
deriving DecidableEq, Repr

/-- What a transaction answers the driver (R141). -/
inductive Response where
  | ok
  | value (v : Word)
  | bytes (bs : List Byte)
  | fault (f : Fault)
  | refused (r : Refusal)
deriving DecidableEq, Repr

/-- `RESET(MEM_SIZE, OPCODE_BASE)` (R141, R180): the construction of an engine. Parameters outside the
constraints of R6 construct none (log entry 17). -/
def Session.construct (c : Config) : Except Refusal Session :=
  if c.wf then .ok { machine := State.resetWith c, stepped := false } else .error .badConfiguration

/-- The register a READ_REG selector stands for: numbers 0 to 11, not reduced modulo 12 (R146, D26; log
entry 18). -/
def registerOfSelector (n : Nat) : Option Reg := if n < 12 then some (Reg.ofNumber n) else none

/-- `READ_REG(sel)` (R146, R163). -/
def readReg (s : State) (selector : Nat) : Except Fault Word :=
  match registerOfSelector selector with
  | some r => .ok (s.reg r)
  | none   => .error (.unknownRegister selector)

/-- `READ_MEM(a, n)` (R147): n bytes in ascending address order (log entry 19). -/
def readMem (s : State) (a n : Nat) : Except Fault (List Byte) :=
  if s.inRange a n then .ok ((List.range n).map fun k => s.byteAt (a + k))
  else raiseAddressError a n .read

/-- `STEP` as R80 writes it: save the state, run, and on a raise restore what was saved (R144, R162). -/
def stepTransaction (saved : State) : State × Response :=
  match Sys2Proof.Machine.step saved with
  | .next t    => (t, .ok)
  | .fault f   => (saved, .fault f)
  | .refused r => (saved, .refused r)

/-- `LOAD(a, v)` (R142). -/
def loadTransaction (s : State) (a : Nat) (v : Byte) : State × Response :=
  match write8 s a v with
  | .ok t    => (t, .ok)
  | .error f => (s, .fault f)

/-- One transaction of the driver. -/
def Session.transact (x : Session) : Transaction → Session × Response
  | .load a v =>
    if x.stepped then (x, .refused .loadAfterFirstStep)
    else ({ x with machine := (loadTransaction x.machine a v).1 }, (loadTransaction x.machine a v).2)
  | .step => ({ machine := (stepTransaction x.machine).1, stepped := true }, (stepTransaction x.machine).2)
  | .readReg n =>
    match readReg x.machine n with
    | .ok v    => (x, .value v)
    | .error f => (x, .fault f)
  | .readMem a n =>
    match readMem x.machine a n with
    | .ok bs   => (x, .bytes bs)
    | .error f => (x, .fault f)

/-- A sequence of transactions, the responses in order. -/
def Session.run (x : Session) : List Transaction → Session × List Response
  | [] => (x, [])
  | t :: ts => ((Session.run (x.transact t).1 ts).1, (x.transact t).2 :: (Session.run (x.transact t).1 ts).2)

end Sys2Proof.Machine
end

