-- ==== Sys2Proof/Safety.lean ====
section
/-! DEFINITION. The terms in which claims about the engine are stated: well-formed states, safe runs, what a
step accesses, and frames. Nothing of the machine is defined here. -/

namespace Sys2Proof

/-! ### What an instruction touches -/

/-- The registers an instruction writes besides the advance of IP: its destination operand, ACC for an
addition, SP for a stack instruction (R21). A taken jump's write of IP is not listed. -/
def Instr.writes : Instr → List Reg
  | .movLitReg _ r   => [r]
  | .movRegReg _ dst => [dst]
  | .movRegMem _ _   => []
  | .movMemReg _ r   => [r]
  | .addRegReg _ _   => [.acc]
  | .jmpNotEq _ _    => []
  | .pshLit _        => [.sp]
  | .pshReg _        => [.sp]
  | .pop r           => [.sp, r]
  | .unrecognised _  => []

/-- The registers an instruction names in an operand or uses implicitly, besides IP (R21). -/
def Instr.uses : Instr → List Reg
  | .movLitReg _ r     => [r]
  | .movRegReg src dst => [src, dst]
  | .movRegMem r _     => [r]
  | .movMemReg _ r     => [r]
  | .addRegReg ra rb   => [ra, rb, .acc]
  | .jmpNotEq _ _      => [.acc]
  | .pshLit _          => [.sp]
  | .pshReg r          => [r, .sp]
  | .pop r             => [r, .sp]
  | .unrecognised _    => []

end Sys2Proof

namespace Sys2Proof.Machine

/-! ### Well-formed states and safe runs -/

/-- The configuration meets R6, memory is in canonical form, and every listed address exists (R27). -/
abbrev State.wf (s : State) : Prop :=
  s.cfg.wf ∧ s.mem.wf = true ∧ s.mem.below s.cfg.memSize = true

/-- `n` steps complete one after another. The engine has no end of run of its own
(spec/40_step_cycle.md R91, D18): a claim names `n`. -/
def State.SafeFor : Nat → State → Prop
  | 0, _ => True
  | n + 1, s => ∃ t, step s = .next t ∧ State.SafeFor n t

/-- A state whose next step faults; it is never left (spec/45_host_interface.md R144). -/
def State.Faulted (s : State) : Prop := ∃ f, step s = .fault f

/-! ### Reading a state in the spec's words -/

/-- `addr + n <= MEM_SIZE` (R41, R42). -/
abbrev State.fits (s : State) (addr n : Nat) : Prop := addr + n ≤ s.cfg.memSize

/-- `M[a] * 256 + M[a + 1]` (R8, R43). -/
def State.wordAt (s : State) (a : Nat) : Word :=
  BitVec.ofNat 16 ((s.byteAt a).toNat * 256 + (s.byteAt (a + 1)).toNat)

/-- `IP +16 k`, the address of an instruction's byte k (R63). -/
def State.ipPlus (s : State) (k : Nat) : Nat := (s.reg .ip + BitVec.ofNat 16 k).toNat

/-- The byte at IP exists and is the declared opcode OPCODE_BASE + k (R66). -/
abbrev State.opcodeIs (s : State) (k : Nat) : Prop :=
  s.fits (s.ipPlus 0) 1 ∧ (s.byteAt (s.ipPlus 0)).toNat = s.cfg.opcodeBase + k

/-- `r` is the register that the operand byte at offset k names: number `b mod 12` (R61). -/
abbrev State.operandIs (s : State) (k : Nat) (r : Reg) : Prop :=
  r.number = (s.byteAt (s.ipPlus k)).toNat % 12

/-- What a source register reads as once the instruction's `len` bytes are consumed: IP is past them (R87,
R123; log entry 10). -/
def State.sourceValue (s : State) (len : Nat) (r : Reg) : Word :=
  if r = .ip then s.reg .ip + BitVec.ofNat 16 len else s.reg r

/-- The instruction the bytes at IP stand for. -/
def State.nextInstr (s : State) : Instr :=
  decodeOperands s.cfg.opcodeBase (s.byteAt (s.ipPlus 0))
    [s.byteAt (s.ipPlus 1), s.byteAt (s.ipPlus 2), s.byteAt (s.ipPlus 3), s.byteAt (s.ipPlus 4)]

/-! ### Frames -/

/-- Every byte of memory reads as before. -/
def SameMemory (s t : State) : Prop := ∀ a, t.byteAt a = s.byteAt a

/-- Every byte outside the `n` bytes from `addr` on reads as before. -/
def SameMemoryBut (addr n : Nat) (s t : State) : Prop :=
  ∀ a, a < addr ∨ addr + n ≤ a → t.byteAt a = s.byteAt a

/-- Every register outside the list holds what it held. -/
def SameRegsBut (rs : List Reg) (s t : State) : Prop := ∀ q, q ∉ rs → t.reg q = s.reg q

/-! ### What a step accesses -/

/-- One memory access: first address, bytes, kind (R160). -/
structure Access where
  addr  : Nat
  width : Nat
  kind  : AccessKind
deriving DecidableEq, Repr

/-- The operand fetches of a layout, the first of them at `p` (R81, R82, R87). -/
def fetchAccesses : Word → List OperandKind → List Access
  | _, [] => []
  | p, k :: ks => ⟨p.toNat, k.size, .fetch⟩ :: fetchAccesses (p + BitVec.ofNat 16 k.size) ks

/-- The data or stack access of an instruction, if it has one (R45, R160). -/
def dataAccesses (s : State) : Instr → List Access
  | .movLitReg _ _  => []
  | .movRegReg _ _  => []
  | .movRegMem _ a  => [⟨a.toNat, 2, .write⟩]
  | .movMemReg a _  => [⟨a.toNat, 2, .read⟩]
  | .addRegReg _ _  => []
  | .jmpNotEq _ _   => []
  | .pshLit _       => [⟨(s.reg .sp).toNat, 2, .write⟩]
  | .pshReg _       => [⟨(s.reg .sp).toNat, 2, .write⟩]
  | .pop _          => [⟨(s.reg .sp + 2).toNat, 2, .read⟩]
  | .unrecognised _ => []

/-- The accesses of the next step in execution order: opcode fetch, operand fetches, data access (R167). -/
def State.accesses (s : State) : List Access :=
  ⟨s.ipPlus 0, 1, .fetch⟩ ::
    (fetchAccesses (s.reg .ip + 1) (layout s.cfg.opcodeBase (s.byteAt (s.ipPlus 0))) ++
      dataAccesses s s.nextInstr)

end Sys2Proof.Machine
end

