-- ==== Sys2Proof/Certificates/Slice0/Obligations.lean ====
section
/-! DEFINITION. The statements for the provers. Each docstring names the rule of spec/ it formalises. Where a
clause rests on a choice the spec marks as its own (wrap of IP and SP, D8, D9; when a source register is
read, D10; what a fault carries, D13; opcode order, D3; register bytes modulo 12, D5; access width, D11),
the docstring names the log entry. Where a statement takes `s.cfg.wf`, it rules out a memory larger than the
16-bit address space, which R6 forbids; that every step keeps it is StepKeepsWellFormed. -/

open Sys2Proof Sys2Proof.Machine

/-! ### Encoding -/

/-- Every well-formed instruction's bytes decode to it, whatever follows them, at every OPCODE_BASE
(R61, R62, R63, R66; order of the opcodes: D3, log entry 4). -/
def Obligations.DecodeInvertsEncode : Prop :=
  ∀ (base : Nat) (i : Instr) (rest : List Byte), base ≤ 247 → i.wf base = true →
    decode base (encode base i ++ rest) = .ok (i, rest)

/-- The decoder reads every bit where R63 puts it: words are byte * 256 + byte, a register byte names number
b mod 12 (R61, D5, log entry 6), the opcode is compared whole, and every undeclared byte is the one-byte
no-op (R66, R67, R86; order D3, log entry 4). -/
def Obligations.DecodeReadsEveryByteOfItsFormat : Prop :=
  ∀ (base : Nat) (op b1 b2 b3 b4 : Byte) (rest : List Byte) (x1 x2 x3 : Reg),
    x1.number = b1.toNat % 12 → x2.number = b2.toNat % 12 → x3.number = b3.toNat % 12 →
    (op.toNat = base + 0 → decode base (op :: b1 :: b2 :: b3 :: rest) =
      .ok (.movLitReg (BitVec.ofNat 16 (b1.toNat * 256 + b2.toNat)) x3, rest)) ∧
    (op.toNat = base + 1 → decode base (op :: b1 :: b2 :: rest) = .ok (.movRegReg x1 x2, rest)) ∧
    (op.toNat = base + 2 → decode base (op :: b1 :: b2 :: b3 :: rest) =
      .ok (.movRegMem x1 (BitVec.ofNat 16 (b2.toNat * 256 + b3.toNat)), rest)) ∧
    (op.toNat = base + 3 → decode base (op :: b1 :: b2 :: b3 :: rest) =
      .ok (.movMemReg (BitVec.ofNat 16 (b1.toNat * 256 + b2.toNat)) x3, rest)) ∧
    (op.toNat = base + 4 → decode base (op :: b1 :: b2 :: rest) = .ok (.addRegReg x1 x2, rest)) ∧
    (op.toNat = base + 5 → decode base (op :: b1 :: b2 :: b3 :: b4 :: rest) =
      .ok (.jmpNotEq (BitVec.ofNat 16 (b1.toNat * 256 + b2.toNat))
        (BitVec.ofNat 16 (b3.toNat * 256 + b4.toNat)), rest)) ∧
    (op.toNat = base + 6 → decode base (op :: b1 :: b2 :: rest) =
      .ok (.pshLit (BitVec.ofNat 16 (b1.toNat * 256 + b2.toNat)), rest)) ∧
    (op.toNat = base + 7 → decode base (op :: b1 :: rest) = .ok (.pshReg x1, rest)) ∧
    (op.toNat = base + 8 → decode base (op :: b1 :: rest) = .ok (.pop x1, rest)) ∧
    (op.toNat < base ∨ base + 8 < op.toNat → decode base (op :: rest) = .ok (.unrecognised op, rest))

/-- R64: an instruction's length is that of the format of its opcode byte, 1 for every undeclared byte;
whatever the operand bytes are, the instruction decodes exactly when that many bytes are there, and leaves
the bytes after them. -/
def Obligations.LengthIsKnownFromByteZero : Prop :=
  ∀ (base : Nat) (op : Byte) (bs : List Byte) (len : Nat),
    len = (if base ≤ op.toNat ∧ op.toNat ≤ base + 8
      then [4, 3, 4, 4, 3, 5, 3, 2, 2].getD (op.toNat - base) 0 else 1) →
    (len ≤ bs.length + 1 → ∃ i, decode base (op :: bs) = .ok (i, (op :: bs).drop len)) ∧
    (bs.length + 1 < len → decode base (op :: bs) = .error (.truncated len (bs.length + 1)))

/-- The other direction: what the decoder reads is well formed, its canonical bytes are as many as it
consumed, begin with the same opcode byte, and decode to it again (R61, R63, R64, R69). -/
def Obligations.DecodedInstructionReencodes : Prop :=
  ∀ (base : Nat) (op : Byte) (bs rest : List Byte) (i : Instr),
    decode base (op :: bs) = .ok (i, rest) →
    i.wf base = true ∧ (encode base i).length + rest.length = bs.length + 1 ∧
      (encode base i).head? = some op ∧ decode base (encode base i) = .ok (i, [])

/-- Words written out from the encodings of R63 and R66 at the default base (D2, log entry 3) decode to what
they stand for, one of each format; 0x0C and 0xFF name IP and R2 (R61). -/
def Obligations.DecodeOfWrittenOutWords : Prop :=
  decode 0x10 [0x10, 0x12, 0x34, 0x0C] = .ok (.movLitReg 0x1234 .ip, []) ∧
  decode 0x10 [0x11, 0x0A, 0x0B] = .ok (.movRegReg .sp .fp, []) ∧
  decode 0x10 [0x12, 0x01, 0x01, 0x00] = .ok (.movRegMem .acc 0x0100, []) ∧
  decode 0x10 [0x13, 0x10, 0x01, 0xFF] = .ok (.movMemReg 0x1001 .r2, []) ∧
  decode 0x10 [0x14, 0x02, 0x03] = .ok (.addRegReg .r1 .r2, []) ∧
  decode 0x10 [0x15, 0x00, 0x03, 0x00, 0x04] = .ok (.jmpNotEq 3 4, []) ∧
  decode 0x10 [0x16, 0xBE, 0xEF] = .ok (.pshLit 0xBEEF, []) ∧
  decode 0x10 [0x17, 0x16] = .ok (.pshReg .sp, []) ∧
  decode 0x10 [0x18, 0x05] = .ok (.pop .r4, []) ∧
  decode 0x10 [0x19] = .ok (.unrecognised 0x19, [])

/-! ### State -/

/-- R32: after RESET with legal parameters every register is zero but SP and FP, which hold MEM_SIZE - 2, and
every byte is zero. -/
def Obligations.ResetValues : Prop :=
  ∀ (c : Config) (x : Session), c.wf → Session.construct c = .ok x →
    x.machine.cfg = c ∧
    (∀ r : Reg, r ≠ .sp → r ≠ .fp → x.machine.reg r = 0) ∧
    (x.machine.reg .sp).toNat = c.memSize - 2 ∧ (x.machine.reg .fp).toNat = c.memSize - 2 ∧
    (∀ a, x.machine.byteAt a = 0)

/-- RESET constructs a well-formed engine for every legal choice of the parameters, the default included, and
none for any other (R6, R141, R180; the refusal of illegal parameters: log entry 17). -/
def Obligations.ResetIsWellFormed : Prop :=
  State.reset.wf ∧ Session.construct Config.default = .ok ⟨State.reset, false⟩ ∧
  ∀ c : Config,
    (c.wf → ∃ x, Session.construct c = .ok x ∧ x.machine.wf ∧ x.stepped = false) ∧
    (¬ c.wf → Session.construct c = .error .badConfiguration)

/-- R20: a write of a register changes that register to the value and no other register, no byte of memory
and no parameter; none of the twelve is hard-wired. -/
def Obligations.RegisterWriteChangesThatRegisterOnly : Prop :=
  ∀ (s : State) (r : Reg) (v : Word),
    (s.setReg r v).reg r = v ∧ SameRegsBut [r] s (s.setReg r v) ∧ SameMemory s (s.setReg r v) ∧
      (s.setReg r v).cfg = s.cfg

/-- The register an operand byte b names is the word at storage offset (b mod 12) * 2 of the 24-byte
big-endian backing array, before and after any register write (R22, R83; twelve words stored: D25, log
entry 14). -/
def Obligations.RegisterByteSelectsItsStorageOffset : Prop :=
  ∀ (s : State) (b : Byte) (r : Reg) (v : Word),
    (s.setReg r v).regs.backing.length = 24 ∧ storageOffset b = b.toNat % 12 * 2 ∧
    BitVec.ofNat 16
      (((s.setReg r v).regs.backing.getD (b.toNat % 12 * 2) 0).toNat * 256 +
        ((s.setReg r v).regs.backing.getD (b.toNat % 12 * 2 + 1) 0).toNat) =
      (if r.number = b.toNat % 12 then v else s.reg (Reg.ofByte b))

/-! ### Memory -/

/-- R42: a 16-bit write that passes the bounds check puts the high byte at the address and the low byte after
it and changes nothing else; one that does not pass raises AddressError(addr, 2, write). An 8-bit write
likewise with its one byte. -/
def Obligations.MemWriteChangesTheAddressedBytesOnly : Prop :=
  ∀ (s : State) (addr : Nat) (v : Word) (b : Byte),
    (s.fits addr 2 → ∃ t, write16 s addr v = .ok t ∧ (t.byteAt addr).toNat = v.toNat / 256 ∧
      (t.byteAt (addr + 1)).toNat = v.toNat % 256 ∧ SameMemoryBut addr 2 s t ∧ t.regs = s.regs ∧
      t.cfg = s.cfg) ∧
    (¬ s.fits addr 2 → write16 s addr v = .error (.addressError addr 2 .write)) ∧
    (s.fits addr 1 → ∃ t, write8 s addr b = .ok t ∧ t.byteAt addr = b ∧ SameMemoryBut addr 1 s t ∧
      t.regs = s.regs ∧ t.cfg = s.cfg) ∧
    (¬ s.fits addr 1 → write8 s addr b = .error (.addressError addr 1 .write))

/-- MemRead at any address, odd ones included, gives the addressed bytes, big-endian, exactly when the range
is inside memory, and raises AddressError otherwise; what was last written is what is read, in either
width (R41, R43, R44, R49; no wrap at 0xFFFF: D12, log entry 7). -/
def Obligations.MemReadGivesTheBytesLastWritten : Prop :=
  ∀ (s t : State) (k : AccessKind) (addr : Nat) (v : Word),
    (s.fits addr 1 → read8 s k addr = .ok (s.byteAt addr)) ∧
    (¬ s.fits addr 1 → read8 s k addr = .error (.addressError addr 1 k)) ∧
    (s.fits addr 2 → read16 s k addr = .ok (s.wordAt addr)) ∧
    (¬ s.fits addr 2 → read16 s k addr = .error (.addressError addr 2 k)) ∧
    (write16 s addr v = .ok t → read16 t k addr = .ok v ∧
      (∃ h, read8 t k addr = .ok h ∧ h.toNat = v.toNat / 256) ∧
      (∃ l, read8 t k (addr + 1) = .ok l ∧ l.toNat = v.toNat % 256))

/-- Memories in canonical form that read the same at every address are the same data (log entry 15: the
representation is the model's choice; R27). -/
def Obligations.CanonicalMemoriesReadingAlikeAreEqual : Prop :=
  ∀ m n : Memory, m.wf = true → n.wf = true → (∀ a, m.byteAt a = n.byteAt a) → m = n

/-! ### The step -/

/-- A step runs the decoded instruction: when the bytes at IP are an instruction's bytes and every fetch is in
range, the step is exec of that instruction with IP past its bytes (R80, R87; wrap of IP: D8, log entry 8). -/
def Obligations.StepRunsTheDecodedInstruction : Prop :=
  ∀ (s : State) (op : Byte) (bs : List Byte) (i : Instr), s.cfg.wf →
    decode s.cfg.opcodeBase (op :: bs) = .ok (i, []) →
    (∀ k, k < (op :: bs).length → s.byteAt (s.ipPlus k) = (op :: bs).getD k 0) →
    s.fits (s.ipPlus 0) 1 →
    (∀ x ∈ fetchAccesses (s.reg .ip + 1) (layout s.cfg.opcodeBase op), s.fits x.addr x.width) →
    step s = exec i (s.setReg .ip (s.reg .ip + BitVec.ofNat 16 (bs.length + 1)))

/-- What the host places at IP is what the next step runs: from reset at the defaults (log entries 2, 3), a
table word that decodes to i is run as i, with IP past it (R33, R142, R182; log entry 22). -/
def Obligations.PlacedWordIsRunFirst : Prop :=
  ∀ (nbits w : Nat) (i : Instr), decodeTableWord nbits w = some i →
    step (State.reset.withFetchWord nbits w) =
      exec i ((State.reset.withFetchWord nbits w).setReg .ip
        (BitVec.ofNat 16 (encode Config.default.opcodeBase i).length))

/-- The step completes exactly when each of its accesses is in range, and otherwise faults with the first that
is not, in the order opcode fetch, operand fetches, data access (R160, R167; what the fault carries: D13,
D14, log entry 12). -/
def Obligations.StepFaultsAtItsFirstOutOfRangeAccess : Prop :=
  ∀ s : State, s.cfg.wf →
    match s.accesses.find? (fun x => decide (s.cfg.memSize < x.addr + x.width)) with
    | some x => step s = .fault (.addressError x.addr x.width x.kind)
    | none   => ∃ t, step s = .next t

/-- No encoding is ever rejected (R69). Any five bytes decode, every register byte b names the register of number
b mod 12 (R61, D5, log entry 6), no step is refused, and a step that fails fails in a memory access that is
out of range, the one its payload reports (R160; payload D13, log entry 12). -/
def Obligations.NoEncodingIsEverRejected : Prop :=
  (∀ (base : Nat) (b0 b1 b2 b3 b4 : Byte), ∃ p, decode base [b0, b1, b2, b3, b4] = .ok p) ∧
  (∀ b : Byte, ∃ r : Reg, r.number = b.toNat % 12 ∧ Reg.ofByte b = r) ∧
  (∀ (s : State) (r : Refusal), step s ≠ .refused r) ∧
  (∀ (s : State) (f : Fault), step s = .fault f →
    ∃ a n k, f = .addressError a n k ∧ ¬ s.fits a n)

/-- At MEM_SIZE = 65536 the only access that can fault is a 2-byte one at 0xFFFF (R160; log entries 2, 12). -/
def Obligations.DefaultSizeFaultsOnlyAtTopByte : Prop :=
  ∀ (s : State) (f : Fault), s.cfg.memSize = 65536 → step s = .fault f →
    ∃ k, f = .addressError 0xFFFF 2 k

/-- Every step keeps a well-formed state well formed: the configuration legal and unchanged (R7), memory
canonical and inside MEM_SIZE (R27; representation: log entry 15). -/
def Obligations.StepKeepsWellFormed : Prop :=
  ∀ s t : State, s.wf → step s = .next t → t.wf ∧ t.cfg = s.cfg

/-- IP advances by the instruction's length unless a destination operand names IP or a jump is taken; a taken
jump puts IP at its address (R89; modulo 65536: D8, log entry 8). -/
def Obligations.IpAdvancesUnlessOverwritten : Prop :=
  ∀ s t : State, s.cfg.wf → step s = .next t →
    (∀ v a, s.nextInstr = .jmpNotEq v a → v ≠ s.reg .acc → t.reg .ip = a) ∧
    ((∀ v a, s.nextInstr = .jmpNotEq v a → v = s.reg .acc) → Reg.ip ∉ s.nextInstr.writes →
      t.reg .ip = s.reg .ip +
        BitVec.ofNat 16 (encode s.cfg.opcodeBase s.nextInstr).length)

/-- Whole-machine frame: a step changes no register but IP and those its instruction writes (R21), and no byte
of memory but the two that MOV_REG_MEM, PSH_LIT and PSH_REG store to, at the operand address or at SP
(R45, width D11, log entry 11). -/
def Obligations.StepChangesOnlyWhatItsInstructionWrites : Prop :=
  ∀ s t : State, s.cfg.wf → step s = .next t →
    SameRegsBut (.ip :: s.nextInstr.writes) s t ∧
    (∀ a, (∀ x ∈ dataAccesses s s.nextInstr, x.kind = .write → a < x.addr ∨ x.addr + x.width ≤ a) →
      t.byteAt a = s.byteAt a)

/-- Whole-machine isolation: a register the instruction neither names nor uses implicitly (R21: IP always, ACC
for ADD_REG_REG and JMP_NOT_EQ, SP for the stack instructions) has no influence on the step. With FP this
is R26. -/
def Obligations.UnnamedRegisterHasNoInfluence : Prop :=
  ∀ (s : State) (q : Reg) (v : Word), s.cfg.wf → q ≠ .ip → q ∉ s.nextInstr.uses →
    match step s with
    | .next t    => step (s.setReg q v) = .next (t.setReg q v)
    | .fault f   => step (s.setReg q v) = .fault f
    | .refused r => step (s.setReg q v) = .refused r

/-- Whole-machine isolation: a byte of memory outside the step's accesses (at most five instruction bytes and
one 2-byte data access, R92) has no influence on the step and is not changed by it. -/
def Obligations.UnaccessedByteHasNoInfluence : Prop :=
  ∀ (s : State) (a : Nat) (v : Byte), s.cfg.wf →
    (∀ x ∈ s.accesses, a < x.addr ∨ x.addr + x.width ≤ a) →
    match step s with
    | .next t    => ∃ u, step (s.setByte a v) = .next u ∧ u.regs = t.regs ∧ u.cfg = t.cfg ∧
        ∀ b, u.byteAt b = if b = a then v else t.byteAt b
    | .fault f   => step (s.setByte a v) = .fault f
    | .refused r => step (s.setByte a v) = .refused r

/-- R92: a step makes at most 5 bytes of instruction fetches and at most one data access, of 2 bytes, and when
it completes at most two registers besides IP have changed. -/
def Obligations.StepIsBounded : Prop :=
  ∀ s t : State,
    ((s.accesses.filter fun x => x.kind = .fetch).map Access.width).sum ≤ 5 ∧
    (s.accesses.filter fun x => x.kind ≠ .fetch).length ≤ 1 ∧
    (∀ x ∈ s.accesses, x.kind ≠ .fetch → x.width = 2) ∧
    (step s = .next t → ∃ p q : Reg, SameRegsBut [.ip, p, q] s t)

/-- Fetch coherence: when MOV_REG_MEM stores at the address the next step fetches from, the next instruction is
decoded from the two bytes just stored, with nothing in between (R51; source IP D10, width D11, log entries
10, 11). -/
def Obligations.NextFetchSeesTheStoredBytes : Prop :=
  ∀ (s t : State) (r : Reg) (a : Word), s.cfg.wf → step s = .next t → s.nextInstr = .movRegMem r a →
    t.reg .ip = a →
    ∃ hi lo : Byte, hi.toNat = (s.sourceValue 4 r).toNat / 256 ∧ lo.toNat = (s.sourceValue 4 r).toNat % 256 ∧
      t.nextInstr = decodeOperands s.cfg.opcodeBase hi
        [lo, t.byteAt (t.ipPlus 2), t.byteAt (t.ipPlus 3), t.byteAt (t.ipPlus 4)]

/-- There is no halt: a JMP_NOT_EQ to its own address, with a value other than ACC, steps to the very same
state, for ever (R91, R120 (b)). -/
def Obligations.SelfJumpSpinsForever : Prop :=
  ∀ s : State, s.opcodeIs 5 → s.fits (s.ipPlus 1) 2 → s.fits (s.ipPlus 3) 2 →
    s.wordAt (s.ipPlus 1) ≠ s.reg .acc → s.wordAt (s.ipPlus 3) = s.reg .ip →
    step s = .next s ∧ ∀ n, s.SafeFor n

/-- Memory that holds only zero bytes runs as one-byte no-ops for any number of steps, IP wrapping at the top,
when 0 is no declared opcode and MEM_SIZE is 65536 (R33 (c), R88, R182; wrap D8, log entry 8). -/
def Obligations.ZeroMemoryRunsAsNoOps : Prop :=
  ∀ (s : State) (n : Nat), s.cfg.memSize = 65536 → 1 ≤ s.cfg.opcodeBase → (∀ a, s.byteAt a = 0) →
    s.SafeFor n ∧ step s = .next (s.setReg .ip (s.reg .ip + 1))

/-! ### What each instruction's effect does (exec: the second phase of R87, IP already past the bytes) -/

/-- MOV_LIT_REG completes in every state: the register holds the literal, all else is as before (effect of
R100; a destination IP is a jump, R122). -/
def Obligations.MovLitRegCompletes : Prop :=
  ∀ (s : State) (lit : Word) (r : Reg), ∃ t, exec (.movLitReg lit r) s = .next t ∧
    t.reg r = lit ∧ SameRegsBut [r] s t ∧ SameMemory s t ∧ t.cfg = s.cfg

/-- MOV_REG_REG completes in every state: a copy, the source read before the write (effect of R101; source and
destination may be the same). -/
def Obligations.MovRegRegCompletes : Prop :=
  ∀ (s : State) (src dst : Reg), ∃ t, exec (.movRegReg src dst) s = .next t ∧
    t.reg dst = s.reg src ∧ SameRegsBut [dst] s t ∧ SameMemory s t ∧ t.cfg = s.cfg

/-- MOV_REG_MEM completes when its two bytes are inside memory: they hold the register, all else is as before;
otherwise it raises AddressError and nothing is written (effect of R102; width D11, payload D13, log
entries 11, 12). -/
def Obligations.MovRegMemCompletes : Prop :=
  ∀ (s : State) (r : Reg) (a : Word),
    (s.fits a.toNat 2 → ∃ t, exec (.movRegMem r a) s = .next t ∧ t.wordAt a.toNat = s.reg r ∧
      SameMemoryBut a.toNat 2 s t ∧ SameRegsBut [] s t ∧ t.cfg = s.cfg) ∧
    (¬ s.fits a.toNat 2 → exec (.movRegMem r a) s = .fault (.addressError a.toNat 2 .write))

/-- MOV_MEM_REG completes when its two bytes are inside memory: the register holds them, all else is as
before; otherwise it raises AddressError (effect of R103; width D11, payload D13, log entries 11, 12). -/
def Obligations.MovMemRegCompletes : Prop :=
  ∀ (s : State) (a : Word) (r : Reg),
    (s.fits a.toNat 2 → ∃ t, exec (.movMemReg a r) s = .next t ∧ t.reg r = s.wordAt a.toNat ∧
      SameRegsBut [r] s t ∧ SameMemory s t ∧ t.cfg = s.cfg) ∧
    (¬ s.fits a.toNat 2 → exec (.movMemReg a r) s = .fault (.addressError a.toNat 2 .read))

/-- ADD_REG_REG completes in every state: ACC is the sum modulo 65536 of the old values, all else as before,
and the order of the operands does not matter (effect of R110). -/
def Obligations.AddRegRegCompletes : Prop :=
  ∀ (s : State) (ra rb : Reg), ∃ t, exec (.addRegReg ra rb) s = .next t ∧
    (t.reg .acc).toNat = ((s.reg ra).toNat + (s.reg rb).toNat) % 65536 ∧
    SameRegsBut [.acc] s t ∧ SameMemory s t ∧ t.cfg = s.cfg ∧
    exec (.addRegReg rb ra) s = .next t

/-- JMP_NOT_EQ completes in every state: IP is the address when the value differs from ACC and unchanged when
it does not, all else as before (effect of R120; the target is not checked, R124). -/
def Obligations.JmpNotEqCompletes : Prop :=
  ∀ (s : State) (v a : Word), ∃ t, exec (.jmpNotEq v a) s = .next t ∧
    (v ≠ s.reg .acc → t.reg .ip = a) ∧ (v = s.reg .acc → t.reg .ip = s.reg .ip) ∧
    SameRegsBut [.ip] s t ∧ SameMemory s t ∧ t.cfg = s.cfg

/-- PSH_LIT completes when the two bytes at SP are inside memory: they hold the literal and SP is 2 lower,
all else as before; otherwise it raises AddressError (effect of R130, R84; wrap D9, payload D13, log
entries 9, 12). -/
def Obligations.PshLitCompletes : Prop :=
  ∀ (s : State) (lit : Word),
    (s.fits (s.reg .sp).toNat 2 → ∃ t, exec (.pshLit lit) s = .next t ∧
      t.wordAt (s.reg .sp).toNat = lit ∧ SameMemoryBut (s.reg .sp).toNat 2 s t ∧
      t.reg .sp = s.reg .sp - 2 ∧ SameRegsBut [.sp] s t ∧ t.cfg = s.cfg) ∧
    (¬ s.fits (s.reg .sp).toNat 2 →
      exec (.pshLit lit) s = .fault (.addressError (s.reg .sp).toNat 2 .write))

/-- PSH_REG likewise, with the register's value from before SP moved, SP itself included (effect of R131, R84,
R134; wrap D9, payload D13, log entries 9, 12). -/
def Obligations.PshRegCompletes : Prop :=
  ∀ (s : State) (r : Reg),
    (s.fits (s.reg .sp).toNat 2 → ∃ t, exec (.pshReg r) s = .next t ∧
      t.wordAt (s.reg .sp).toNat = s.reg r ∧ SameMemoryBut (s.reg .sp).toNat 2 s t ∧
      t.reg .sp = s.reg .sp - 2 ∧ SameRegsBut [.sp] s t ∧ t.cfg = s.cfg) ∧
    (¬ s.fits (s.reg .sp).toNat 2 →
      exec (.pshReg r) s = .fault (.addressError (s.reg .sp).toNat 2 .write))

/-- POP completes when the two bytes at SP + 2 are inside memory: the register holds them, SP is 2 higher
unless SP is the destination, which then holds the word, all else as before, the popped bytes included;
otherwise it raises AddressError (effect of R132, R85, R134; wrap D9, payload D13, log entries 9, 12). -/
def Obligations.PopCompletes : Prop :=
  ∀ (s : State) (r : Reg),
    (s.fits (s.reg .sp + 2).toNat 2 → ∃ t, exec (.pop r) s = .next t ∧
      t.reg r = s.wordAt (s.reg .sp + 2).toNat ∧ (r ≠ .sp → t.reg .sp = s.reg .sp + 2) ∧
      SameRegsBut [.sp, r] s t ∧ SameMemory s t ∧ t.cfg = s.cfg) ∧
    (¬ s.fits (s.reg .sp + 2).toNat 2 →
      exec (.pop r) s = .fault (.addressError (s.reg .sp + 2).toNat 2 .read))

/-- An unrecognised opcode completes in every state and changes nothing (effect of R88; D4, log entry 5). -/
def Obligations.UnrecognisedOpcodeCompletes : Prop :=
  ∀ (s : State) (op : Byte), ∃ t, exec (.unrecognised op) s = .next t ∧
    SameRegsBut [] s t ∧ SameMemory s t ∧ t.cfg = s.cfg

/-! ### Whole instructions from the bytes at IP (R100 to R132, R88) -/

/-- R100 from its bytes: opcode, literal high, literal low, register byte (wrap of IP: D8, log entry 8). -/
def Obligations.MovLitRegFromItsBytes : Prop :=
  ∀ (s : State) (r : Reg), s.opcodeIs 0 → s.fits (s.ipPlus 1) 2 → s.fits (s.ipPlus 3) 1 →
    s.operandIs 3 r →
    ∃ t, step s = .next t ∧ t.reg r = s.wordAt (s.ipPlus 1) ∧ (r ≠ .ip → t.reg .ip = s.reg .ip + 4) ∧
      SameRegsBut [.ip, r] s t ∧ SameMemory s t ∧ t.cfg = s.cfg

/-- R101 from its bytes: opcode, source byte, destination byte; a source IP reads the next instruction's
address (R87, R123, D10, log entry 10; wrap D8, log entry 8). -/
def Obligations.MovRegRegFromItsBytes : Prop :=
  ∀ (s : State) (src dst : Reg), s.opcodeIs 1 → s.fits (s.ipPlus 1) 1 → s.fits (s.ipPlus 2) 1 →
    s.operandIs 1 src → s.operandIs 2 dst →
    ∃ t, step s = .next t ∧ t.reg dst = s.sourceValue 3 src ∧
      (dst ≠ .ip → t.reg .ip = s.reg .ip + 3) ∧
      SameRegsBut [.ip, dst] s t ∧ SameMemory s t ∧ t.cfg = s.cfg

/-- R102 from its bytes: opcode, register byte, address high, address low, the store over its own bytes
included (R51; D10, D11, D8, D13, log entries 8, 10, 11, 12). -/
def Obligations.MovRegMemFromItsBytes : Prop :=
  ∀ (s : State) (r : Reg), s.opcodeIs 2 → s.fits (s.ipPlus 1) 1 → s.fits (s.ipPlus 2) 2 →
    s.operandIs 1 r →
    (s.fits (s.wordAt (s.ipPlus 2)).toNat 2 → ∃ t, step s = .next t ∧
      t.wordAt (s.wordAt (s.ipPlus 2)).toNat = s.sourceValue 4 r ∧
      SameMemoryBut (s.wordAt (s.ipPlus 2)).toNat 2 s t ∧
      t.reg .ip = s.reg .ip + 4 ∧ SameRegsBut [.ip] s t ∧ t.cfg = s.cfg) ∧
    (¬ s.fits (s.wordAt (s.ipPlus 2)).toNat 2 →
      step s = .fault (.addressError (s.wordAt (s.ipPlus 2)).toNat 2 .write))

/-- R103 from its bytes: opcode, address high, address low, register byte (D11, D8, D13, log entries 8, 11,
12). -/
def Obligations.MovMemRegFromItsBytes : Prop :=
  ∀ (s : State) (r : Reg), s.opcodeIs 3 → s.fits (s.ipPlus 1) 2 → s.fits (s.ipPlus 3) 1 →
    s.operandIs 3 r →
    (s.fits (s.wordAt (s.ipPlus 1)).toNat 2 → ∃ t, step s = .next t ∧
      t.reg r = s.wordAt (s.wordAt (s.ipPlus 1)).toNat ∧ (r ≠ .ip → t.reg .ip = s.reg .ip + 4) ∧
      SameRegsBut [.ip, r] s t ∧ SameMemory s t ∧ t.cfg = s.cfg) ∧
    (¬ s.fits (s.wordAt (s.ipPlus 1)).toNat 2 →
      step s = .fault (.addressError (s.wordAt (s.ipPlus 1)).toNat 2 .read))

/-- R110 from its bytes: opcode, first source byte, second source byte (D10, D8, log entries 8, 10). -/
def Obligations.AddRegRegFromItsBytes : Prop :=
  ∀ (s : State) (ra rb : Reg), s.opcodeIs 4 → s.fits (s.ipPlus 1) 1 → s.fits (s.ipPlus 2) 1 →
    s.operandIs 1 ra → s.operandIs 2 rb →
    ∃ t, step s = .next t ∧
      (t.reg .acc).toNat = ((s.sourceValue 3 ra).toNat + (s.sourceValue 3 rb).toNat) % 65536 ∧
      t.reg .ip = s.reg .ip + 3 ∧ SameRegsBut [.ip, .acc] s t ∧ SameMemory s t ∧ t.cfg = s.cfg

/-- R120 from its bytes: opcode, value high, value low, address high, address low (D8, log entry 8). -/
def Obligations.JmpNotEqFromItsBytes : Prop :=
  ∀ s : State, s.opcodeIs 5 → s.fits (s.ipPlus 1) 2 → s.fits (s.ipPlus 3) 2 →
    ∃ t, step s = .next t ∧
      t.reg .ip = (if s.wordAt (s.ipPlus 1) = s.reg .acc then s.reg .ip + 5 else s.wordAt (s.ipPlus 3)) ∧
      SameRegsBut [.ip] s t ∧ SameMemory s t ∧ t.cfg = s.cfg

/-- R130 from its bytes: opcode, literal high, literal low (D8, D9, D13, log entries 8, 9, 12). -/
def Obligations.PshLitFromItsBytes : Prop :=
  ∀ s : State, s.opcodeIs 6 → s.fits (s.ipPlus 1) 2 →
    (s.fits (s.reg .sp).toNat 2 → ∃ t, step s = .next t ∧
      t.wordAt (s.reg .sp).toNat = s.wordAt (s.ipPlus 1) ∧ SameMemoryBut (s.reg .sp).toNat 2 s t ∧
      t.reg .sp = s.reg .sp - 2 ∧ t.reg .ip = s.reg .ip + 3 ∧ SameRegsBut [.ip, .sp] s t ∧
      t.cfg = s.cfg) ∧
    (¬ s.fits (s.reg .sp).toNat 2 → step s = .fault (.addressError (s.reg .sp).toNat 2 .write))

/-- R131 from its bytes: opcode, register byte; SP pushes its old value, IP the next instruction's address
(R134; D8, D9, D10, D13, log entries 8, 9, 10, 12). -/
def Obligations.PshRegFromItsBytes : Prop :=
  ∀ (s : State) (r : Reg), s.opcodeIs 7 → s.fits (s.ipPlus 1) 1 → s.operandIs 1 r →
    (s.fits (s.reg .sp).toNat 2 → ∃ t, step s = .next t ∧
      t.wordAt (s.reg .sp).toNat = s.sourceValue 2 r ∧ SameMemoryBut (s.reg .sp).toNat 2 s t ∧
      t.reg .sp = s.reg .sp - 2 ∧ t.reg .ip = s.reg .ip + 2 ∧ SameRegsBut [.ip, .sp] s t ∧
      t.cfg = s.cfg) ∧
    (¬ s.fits (s.reg .sp).toNat 2 → step s = .fault (.addressError (s.reg .sp).toNat 2 .write))

/-- R132 from its bytes: opcode, register byte; POP SP leaves the popped word in SP, POP IP returns (R134; D8,
D9, D13, log entries 8, 9, 12). -/
def Obligations.PopFromItsBytes : Prop :=
  ∀ (s : State) (r : Reg), s.opcodeIs 8 → s.fits (s.ipPlus 1) 1 → s.operandIs 1 r →
    (s.fits (s.reg .sp + 2).toNat 2 → ∃ t, step s = .next t ∧
      t.reg r = s.wordAt (s.reg .sp + 2).toNat ∧ (r ≠ .sp → t.reg .sp = s.reg .sp + 2) ∧
      (r ≠ .ip → t.reg .ip = s.reg .ip + 2) ∧
      SameRegsBut [.ip, .sp, r] s t ∧ SameMemory s t ∧ t.cfg = s.cfg) ∧
    (¬ s.fits (s.reg .sp + 2).toNat 2 →
      step s = .fault (.addressError (s.reg .sp + 2).toNat 2 .read))

/-- R88 from its byte: any byte outside the nine declared values only advances IP by 1 (D4, D8, log entries 5,
8). -/
def Obligations.UnrecognisedOpcodeFromItsByte : Prop :=
  ∀ s : State, s.fits (s.ipPlus 0) 1 →
    ((s.byteAt (s.ipPlus 0)).toNat < s.cfg.opcodeBase ∨
      s.cfg.opcodeBase + 8 < (s.byteAt (s.ipPlus 0)).toNat) →
    ∃ t, step s = .next t ∧ t.reg .ip = s.reg .ip + 1 ∧ SameRegsBut [.ip] s t ∧ SameMemory s t ∧
      t.cfg = s.cfg

/-! ### The stack -/

/-- The register a run of pops leaves its words in, first popped first; none when a pop faults. -/
def popWords (r : Reg) : Nat → State → Option (List Word × State)
  | 0, s => some ([], s)
  | n + 1, s =>
    match exec (.pop r) s with
    | .next t    => (popWords r n t).map fun p => (t.reg r :: p.1, p.2)
    | .fault _   => none
    | .refused _ => none

/-- A run of PSH_LIT effects, the first literal pushed first. -/
def pushWords : List Word → State → Result
  | [], s => .next s
  | v :: vs, s =>
    match exec (.pshLit v) s with
    | .next t    => pushWords vs t
    | .fault f   => .fault f
    | .refused r => .refused r

/-- PSH_REG then POP into a register other than SP gives the value back, SP where it was, and the popped bytes
still in memory, for every value and every SP in range (R133 (b), R132; wrap D9, log entry 9). -/
def Obligations.PushThenPopGivesTheValueBack : Prop :=
  ∀ (s : State) (r q : Reg), q ≠ .sp → s.fits (s.reg .sp).toNat 2 →
    ∃ t u, exec (.pshReg r) s = .next t ∧ exec (.pop q) t = .next u ∧ u.reg q = s.reg r ∧
      u.reg .sp = s.reg .sp ∧ u.wordAt (s.reg .sp).toNat = s.reg r

/-- Last in, first out, at any depth the memory below SP allows: n pushes lower SP by 2n, n pops return the
words in reverse order and SP to where it was, and change no memory (R133 (a), (c), (d); wrap D9, log
entry 9). -/
def Obligations.StackIsLastInFirstOut : Prop :=
  ∀ (vs : List Word) (s : State) (r : Reg), r ≠ .sp → s.fits (s.reg .sp).toNat 2 →
    2 * vs.length ≤ (s.reg .sp).toNat + 2 →
    ∃ t u, pushWords vs s = .next t ∧ t.reg .sp = s.reg .sp - BitVec.ofNat 16 (2 * vs.length) ∧
      popWords r vs.length t = some (vs.reverse, u) ∧ u.reg .sp = s.reg .sp ∧ SameMemory t u

/-- R135: the only check on the stack is the bounds check of the 2-byte access: whatever value SP holds, even
or odd, inside code or data, a push completes exactly when the two bytes at SP exist and a pop exactly
when the two bytes above do. -/
def Obligations.StackHasNoLimitButMemoryBounds : Prop :=
  ∀ (s : State) (lit : Word) (r : Reg),
    ((∃ t, exec (.pshLit lit) s = .next t) ↔ s.fits (s.reg .sp).toNat 2) ∧
    ((∃ t, exec (.pshReg r) s = .next t) ↔ s.fits (s.reg .sp).toNat 2) ∧
    ((∃ t, exec (.pop r) s = .next t) ↔ s.fits (s.reg .sp + 2).toNat 2)

/-- The call idiom of R73: PSH_LIT ret, then MOV_LIT_REG sub IP, goes to sub; and POP IP, in any later state
with SP and the pushed word as the call left them, returns to ret with SP as before the call (wrap D9, log
entry 9). -/
def Obligations.CallIdiomReturns : Prop :=
  ∀ (s : State) (ret sub : Word), s.fits (s.reg .sp).toNat 2 →
    ∃ t u, exec (.pshLit ret) s = .next t ∧ exec (.movLitReg sub .ip) t = .next u ∧ u.reg .ip = sub ∧
      ∀ w : State, w.cfg = u.cfg → w.reg .sp = u.reg .sp →
        w.wordAt (s.reg .sp).toNat = u.wordAt (s.reg .sp).toNat →
        ∃ x, exec (.pop .ip) w = .next x ∧ x.reg .ip = ret ∧ x.reg .sp = s.reg .sp

/-! ### The driver -/

/-- A STEP that faults leaves the engine as it was, and every further STEP faults in the same way, for ever
(R144, R162; D7, D15, log entry 13; what the driver's phase does: log entry 16). -/
def Obligations.FaultedStepRepeatsForever : Prop :=
  ∀ (x : Session) (f : Fault) (n : Nat), step x.machine = .fault f →
    x.run (List.replicate (n + 1) .step) =
      ({ x with stepped := true }, List.replicate (n + 1) (.fault f))

/-- READ_REG answers the selected register, or UnknownRegister for a selector of 12 or more, unreduced;
READ_MEM answers the n bytes in ascending order, or AddressError; neither changes anything (R146, R147,
R163; D13, D22, D26, log entries 12, 18, 19). -/
def Obligations.InspectionReadsAndChangesNothing : Prop :=
  ∀ (x : Session) (sel a n : Nat),
    (∀ r : Reg, r.number = sel → x.transact (.readReg sel) = (x, .value (x.machine.reg r))) ∧
    (12 ≤ sel → x.transact (.readReg sel) = (x, .fault (.unknownRegister sel))) ∧
    (x.machine.fits a n → ∃ bs, x.transact (.readMem a n) = (x, .bytes bs) ∧ bs.length = n ∧
      ∀ k, k < n → bs.getD k 0 = x.machine.byteAt (a + k)) ∧
    (¬ x.machine.fits a n → x.transact (.readMem a n) = (x, .fault (.addressError a n .read)))

/-- LOAD before the first STEP writes one byte and nothing else, or answers AddressError and changes nothing;
after a first STEP it is refused (R142; D17, D22, log entries 16, 19). -/
def Obligations.LoadWritesOneByteBeforeTheFirstStep : Prop :=
  ∀ (x : Session) (a : Nat) (v : Byte),
    (x.stepped = false → x.machine.fits a 1 → ∃ y, x.transact (.load a v) = (y, .ok) ∧
      y.stepped = false ∧ y.machine.byteAt a = v ∧ SameMemoryBut a 1 x.machine y.machine ∧
      y.machine.regs = x.machine.regs ∧ y.machine.cfg = x.machine.cfg) ∧
    (x.stepped = false → ¬ x.machine.fits a 1 →
      x.transact (.load a v) = (x, .fault (.addressError a 1 .write))) ∧
    (x.stepped = true → x.transact (.load a v) = (x, .refused .loadAfterFirstStep))

/-- LOADs commute unless they write the same byte, when the later wins: the engine they leave is the same
data (R182; in well-formed states, which canonical memory needs: log entry 15). -/
def Obligations.LoadsCommute : Prop :=
  ∀ (x : Session) (a b : Nat) (v w : Byte), x.machine.wf →
    (a ≠ b → (x.run [.load a v, .load b w]).1 = (x.run [.load b w, .load a v]).1) ∧
    (x.run [.load a v, .load a w]).1 = (x.run [.load a w]).1

/-- Every transaction keeps a well-formed engine well formed, and none but STEP writes a register (R148; D16,
log entry 21); once a first STEP was triggered, none but STEP changes anything (R142, D17, log entry 16). -/
def Obligations.TransactionsKeepTheEngineWellFormed : Prop :=
  ∀ (x : Session) (m : Transaction), x.machine.wf →
    (x.transact m).1.machine.wf ∧ (x.transact m).1.machine.cfg = x.machine.cfg ∧
    (m ≠ .step → (x.transact m).1.machine.regs = x.machine.regs) ∧
    (m ≠ .step → x.stepped = true → (x.transact m).1 = x)
end

