-- ==== Sys2Proof/Laws/Bytes.lean ====
section
/-! SUPPORT. Bytes and words, register numbers, opcode offsets: the small lemmas of Decode.lean. -/

namespace Sys2Proof

theorem wordOfBytes_toNat (h l : Byte) : (wordOfBytes h l).toNat = h.toNat * 256 + l.toNat := by
  unfold wordOfBytes
  rw [BitVec.toNat_append, ← Nat.shiftLeft_add_eq_or_of_lt l.isLt, Nat.shiftLeft_eq]

theorem highByte_toNat (w : Word) : (highByte w).toNat = w.toNat / 256 := by
  have := w.isLt
  simp only [highByte, BitVec.extractLsb'_toNat, Nat.shiftRight_eq_div_pow]
  omega

theorem lowByte_toNat (w : Word) : (lowByte w).toNat = w.toNat % 256 := by
  simp [lowByte]

/-- The spec's `h * 256 + l` is the word of the two bytes (R8). -/
theorem wordOfBytes_eq_ofNat (h l : Byte) :
    wordOfBytes h l = BitVec.ofNat 16 (h.toNat * 256 + l.toNat) := by
  apply BitVec.eq_of_toNat_eq
  have := h.isLt; have := l.isLt
  rw [wordOfBytes_toNat, BitVec.toNat_ofNat, Nat.mod_eq_of_lt (by omega)]

@[simp] theorem wordOfBytes_high_low (w : Word) : wordOfBytes (highByte w) (lowByte w) = w := by
  apply BitVec.eq_of_toNat_eq
  rw [wordOfBytes_toNat, highByte_toNat, lowByte_toNat]; omega

@[simp] theorem highByte_wordOfBytes (h l : Byte) : highByte (wordOfBytes h l) = h := by
  apply BitVec.eq_of_toNat_eq
  have := l.isLt
  rw [highByte_toNat, wordOfBytes_toNat]; omega

@[simp] theorem lowByte_wordOfBytes (h l : Byte) : lowByte (wordOfBytes h l) = l := by
  apply BitVec.eq_of_toNat_eq
  have := l.isLt
  rw [lowByte_toNat, wordOfBytes_toNat]; omega

theorem Reg.number_lt (r : Reg) : r.number < 12 := by cases r <;> decide

@[simp] theorem Reg.ofNumber_number (r : Reg) : Reg.ofNumber r.number = r := by cases r <;> rfl

theorem Reg.number_ofNumber {n : Nat} (h : n < 12) : (Reg.ofNumber n).number = n := by
  interval_cases n <;> rfl

@[simp] theorem Reg.number_ofByte (b : Byte) : (Reg.ofByte b).number = b.toNat % 12 :=
  Reg.number_ofNumber (Nat.mod_lt _ (by decide))

theorem Reg.number_inj {r q : Reg} (h : r.number = q.number) : r = q := by
  rw [← Reg.ofNumber_number r, h, Reg.ofNumber_number]

/-- The register with number b mod 12 is the one the byte names (R61). -/
theorem Reg.eq_ofByte {r : Reg} {b : Byte} (h : r.number = b.toNat % 12) : Reg.ofByte b = r :=
  Reg.number_inj (by rw [Reg.number_ofByte, h])

@[simp] theorem Reg.ofByte_toByte (r : Reg) : Reg.ofByte r.toByte = r := by cases r <;> rfl

/-- An opcode byte OPCODE_BASE + k has offset k (R66). -/
theorem opcodeOffset_of_eq {base k : Nat} {op : Byte} (h : op.toNat = base + k) (hk : k ≤ 8) :
    opcodeOffset base op = some k := by
  simp [opcodeOffset, h, hk]

/-- A byte outside the nine has no offset (R67). -/
theorem opcodeOffset_of_undeclared {base : Nat} {op : Byte}
    (h : op.toNat < base ∨ base + 8 < op.toNat) : opcodeOffset base op = none := by
  simp only [opcodeOffset, ite_eq_right_iff, reduceCtorEq, imp_false, not_and_or]; omega

/-- The ten cases of an opcode byte: base + k with its offset, or undeclared. -/
theorem opcodeOffset_cases (base : Nat) (op : Byte) :
    (∃ k, k ≤ 8 ∧ op.toNat = base + k ∧ opcodeOffset base op = some k) ∨
    ((op.toNat < base ∨ base + 8 < op.toNat) ∧ opcodeOffset base op = none) := by
  by_cases h : base ≤ op.toNat ∧ op.toNat ≤ base + 8
  · exact .inl ⟨op.toNat - base, by omega, by omega, by simp [opcodeOffset, h]⟩
  · exact .inr ⟨by omega, by simp [opcodeOffset, h]⟩

theorem opcodeByte_toNat {base k : Nat} (hb : base ≤ 247) (hk : k ≤ 8) :
    (opcodeByte base k).toNat = base + k := by
  simp [opcodeByte]; omega

theorem opcodeOffset_opcodeByte {base k : Nat} (hb : base ≤ 247) (hk : k ≤ 8) :
    opcodeOffset base (opcodeByte base k) = some k :=
  opcodeOffset_of_eq (opcodeByte_toNat hb hk) hk

theorem OperandKind.size_pos (k : OperandKind) : 1 ≤ k.size ∧ k.size ≤ 2 := by cases k <;> decide

theorem sizeOfOperands_append (ks js : List OperandKind) :
    sizeOfOperands (ks ++ js) = sizeOfOperands ks + sizeOfOperands js := by
  induction ks with
  | nil => simp [sizeOfOperands]
  | cons k ks ih => simp [sizeOfOperands, ih, Nat.add_assoc]

/-- Operands take at most four bytes (R60). -/
theorem sizeOfOperands_layout_le (base : Nat) (op : Byte) : sizeOfOperands (layout base op) ≤ 4 := by
  unfold layout; split <;> decide

end Sys2Proof
end

