-- ==== Sys2Proof/Laws/State.lean ====
section
/-! SUPPORT. One lemma for each field and each update of State, so that no proof unfolds a record update. -/

namespace Sys2Proof.Machine

variable (s : State) (r q : Reg) (v w : Word) (a : Nat) (b : Byte)

/-! ### Register file -/

theorem Regs.get_set (g : Regs) : (g.set r v).get q = if q = r then v else g.get q := by
  cases r <;> cases q <;> rfl

@[simp] theorem Regs.get_set_same (g : Regs) : (g.set r v).get r = v := by simp [Regs.get_set]

theorem Regs.get_set_ne (g : Regs) (h : q ≠ r) : (g.set r v).get q = g.get q := by
  simp [Regs.get_set, h]

@[simp] theorem Regs.set_set (g : Regs) : (g.set r v).set r w = g.set r w := by cases r <;> rfl

theorem Regs.set_comm (g : Regs) (h : q ≠ r) : (g.set r v).set q w = (g.set q w).set r v := by
  cases r <;> cases q <;> first | rfl | exact absurd rfl h

@[simp] theorem Regs.set_get (g : Regs) : g.set r (g.get r) = g := by cases r <;> rfl

/-- A register file is its twelve registers. -/
theorem Regs.ext_get {g h : Regs} (e : ∀ x, g.get x = h.get x) : g = h := by
  cases g; cases h
  simp only [Regs.mk.injEq]
  exact ⟨e .ip, e .acc, e .r1, e .r2, e .r3, e .r4, e .r5, e .r6, e .r7, e .r8, e .sp, e .fp⟩

/-! ### setReg -/

@[simp] theorem State.setReg_cfg : (s.setReg r v).cfg = s.cfg := rfl
@[simp] theorem State.setReg_mem : (s.setReg r v).mem = s.mem := rfl
@[simp] theorem State.setReg_regs : (s.setReg r v).regs = s.regs.set r v := rfl
@[simp] theorem State.setReg_byteAt : (s.setReg r v).byteAt a = s.byteAt a := rfl
@[simp] theorem State.setReg_inRange (n : Nat) : (s.setReg r v).inRange a n = s.inRange a n := rfl

theorem State.reg_setReg : (s.setReg r v).reg q = if q = r then v else s.reg q :=
  Regs.get_set r q v s.regs

@[simp] theorem State.reg_setReg_same : (s.setReg r v).reg r = v := by simp [State.reg_setReg]

@[simp] theorem State.reg_setReg_ne (h : q ≠ r) : (s.setReg r v).reg q = s.reg q := by
  simp [State.reg_setReg, h]

@[simp] theorem State.setReg_setReg : (s.setReg r v).setReg r w = s.setReg r w := by
  simp [State.setReg]

theorem State.setReg_comm (h : q ≠ r) : (s.setReg r v).setReg q w = (s.setReg q w).setReg r v := by
  simp [State.setReg, Regs.set_comm r q v w s.regs h]

@[simp] theorem State.setReg_reg : s.setReg r (s.reg r) = s := by
  simp [State.setReg, State.reg]

/-! ### setByte -/

@[simp] theorem State.setByte_cfg : (s.setByte a b).cfg = s.cfg := rfl
@[simp] theorem State.setByte_regs : (s.setByte a b).regs = s.regs := rfl
@[simp] theorem State.setByte_mem : (s.setByte a b).mem = s.mem.setByte a b := rfl
@[simp] theorem State.setByte_reg : (s.setByte a b).reg r = s.reg r := rfl
@[simp] theorem State.setByte_inRange (c n : Nat) : (s.setByte a b).inRange c n = s.inRange c n := rfl

theorem State.setByte_setReg : (s.setReg r v).setByte a b = (s.setByte a b).setReg r v := rfl

end Sys2Proof.Machine
end

