-- ==== Sys2Proof/Laws/Memory.lean ====
section
/-! SUPPORT. The laws of memory: a read after a write, and the canonical form that every memory operation
keeps. -/

namespace Sys2Proof.Machine

/-! ### Reading -/

@[simp] theorem Memory.byteAt_nil (a : Nat) : Memory.byteAt [] a = unlistedByte := rfl

theorem Memory.byteAt_cons (c : Host.Cell) (m : Memory) (a : Nat) :
    Memory.byteAt (c :: m) a = if c.1 = a then c.2 else Memory.byteAt m a := rfl

theorem Memory.byteAt_erase (m : Memory) (a b : Nat) :
    (m.erase a).byteAt b = if b = a then unlistedByte else m.byteAt b := by
  induction m with
  | nil => simp [Memory.erase]
  | cons c m ih =>
    unfold Memory.erase at ih ⊢
    by_cases h : c.1 = a
    · rw [List.filter_cons_of_neg (by simp [h]), ih, Memory.byteAt_cons]
      by_cases hb : b = a
      · simp [hb]
      · simp [hb, h, Ne.symm hb]
    · rw [List.filter_cons_of_pos (by simp [h]), Memory.byteAt_cons, ih, Memory.byteAt_cons]
      by_cases hb : b = a
      · simp [hb, h]
      · simp [hb]

theorem Memory.byteAt_insert (m : Memory) (a b : Nat) (v : Byte) (hn : ∀ c ∈ m, c.1 ≠ a) :
    (Memory.insert a v m).byteAt b = if b = a then v else m.byteAt b := by
  induction m with
  | nil => simp [Memory.insert, Memory.byteAt_cons, eq_comm]
  | cons c m ih =>
    obtain ⟨d, w⟩ := c
    have hd : d ≠ a := hn (d, w) (by simp)
    have ih := ih fun c hc => hn c (by simp [hc])
    unfold Memory.insert
    split
    · by_cases hb : b = a
      · simp [Memory.byteAt_cons, hb]
      · simp [Memory.byteAt_cons, hb, Ne.symm hb]
    · rw [Memory.byteAt_cons, ih, Memory.byteAt_cons]
      by_cases hb : b = a
      · simp [hb, hd]
      · simp [hb]

theorem Memory.erase_ne (m : Memory) (a : Nat) : ∀ c ∈ m.erase a, c.1 ≠ a := by
  intro c hc
  simpa [Memory.erase] using (List.mem_filter.mp hc).2

/-- A read after a write: the byte written at its address, every other byte as before. -/
theorem Memory.byteAt_setByte (m : Memory) (a b : Nat) (v : Byte) :
    (m.setByte a v).byteAt b = if b = a then v else m.byteAt b := by
  unfold Memory.setByte
  split
  · rename_i h; rw [Memory.byteAt_erase, h]
  · rw [Memory.byteAt_insert _ _ _ _ (m.erase_ne a),
      Memory.byteAt_erase]
    split <;> rfl

theorem State.byteAt_setByte (s : State) (a b : Nat) (v : Byte) :
    (s.setByte a v).byteAt b = if b = a then v else s.byteAt b :=
  Memory.byteAt_setByte s.mem a b v

@[simp] theorem State.byteAt_setByte_same (s : State) (a : Nat) (v : Byte) :
    (s.setByte a v).byteAt a = v := by simp [State.byteAt_setByte]

@[simp] theorem State.byteAt_setByte_ne (s : State) {a b : Nat} (v : Byte) (h : b ≠ a) :
    (s.setByte a v).byteAt b = s.byteAt b := by simp [State.byteAt_setByte, h]

/-! ### The canonical form -/

/-- The head of a canonical memory is not the unlisted byte, the tail is canonical, and every later address
is higher. -/
theorem Memory.wf_cons {c : Host.Cell} {m : Memory} :
    Memory.wf (c :: m) = true ↔ c.2 ≠ unlistedByte ∧ m.wf = true ∧ ∀ d ∈ m, c.1 < d.1 := by
  induction m generalizing c with
  | nil => simp [Memory.wf]
  | cons d m ih =>
    obtain ⟨a, v⟩ := c
    obtain ⟨b, w⟩ := d
    constructor
    · intro h
      simp only [Memory.wf, Bool.and_eq_true, bne_iff_ne, decide_eq_true_eq] at h
      refine ⟨h.1.1, h.2, fun e he => ?_⟩
      rcases List.mem_cons.mp he with rfl | he
      · exact h.1.2
      · exact Nat.lt_trans h.1.2 ((ih.mp h.2).2.2 e he)
    · intro h
      simp only [Memory.wf, Bool.and_eq_true, bne_iff_ne, decide_eq_true_eq]
      exact ⟨⟨h.1, h.2.2 (b, w) (by simp)⟩, h.2.1⟩

theorem Memory.wf_nil : Memory.wf [] = true := rfl

theorem Memory.wf_erase {m : Memory} (a : Nat) (h : m.wf = true) : (m.erase a).wf = true := by
  induction m with
  | nil => exact h
  | cons c m ih =>
    obtain ⟨h1, h2, h3⟩ := Memory.wf_cons.mp h
    unfold Memory.erase at ih ⊢
    by_cases e : c.1 = a
    · rw [List.filter_cons_of_neg (by simp [e])]; exact ih h2
    · rw [List.filter_cons_of_pos (by simp [e])]
      exact Memory.wf_cons.mpr ⟨h1, ih h2, fun d hd => h3 d (List.mem_filter.mp hd).1⟩

theorem Memory.mem_insert {a : Nat} {v : Byte} {m : Memory} {c : Host.Cell} :
    c ∈ Memory.insert a v m ↔ c = (a, v) ∨ c ∈ m := by
  induction m with
  | nil => simp [Memory.insert]
  | cons d m ih =>
    obtain ⟨b, w⟩ := d
    unfold Memory.insert
    split
    · simp
    · simp only [List.mem_cons, ih]; tauto

theorem Memory.wf_insert {m : Memory} {a : Nat} {v : Byte} (h : m.wf = true)
    (hv : v ≠ unlistedByte) (hn : ∀ c ∈ m, c.1 ≠ a) : (Memory.insert a v m).wf = true := by
  induction m with
  | nil => simpa [Memory.insert, Memory.wf] using hv
  | cons d m ih =>
    obtain ⟨b, w⟩ := d
    obtain ⟨h1, h2, h3⟩ := Memory.wf_cons.mp h
    have hb : b ≠ a := hn (b, w) (by simp)
    unfold Memory.insert
    split
    · rename_i hlt
      refine Memory.wf_cons.mpr ⟨hv, h, fun d hd => ?_⟩
      rcases List.mem_cons.mp hd with rfl | hd
      · exact hlt
      · exact Nat.lt_trans hlt (h3 d hd)
    · rename_i hlt
      refine Memory.wf_cons.mpr ⟨h1, ih h2 fun c hc => hn c (by simp [hc]), fun d hd => ?_⟩
      rcases Memory.mem_insert.mp hd with rfl | hd
      · simp only at hlt hb ⊢; omega
      · exact h3 d hd

/-- A write keeps the canonical form. -/
theorem Memory.wf_setByte {m : Memory} (a : Nat) (v : Byte) (h : m.wf = true) :
    (m.setByte a v).wf = true := by
  unfold Memory.setByte
  split
  · exact Memory.wf_erase a h
  · rename_i hv; exact Memory.wf_insert (Memory.wf_erase a h) hv (m.erase_ne a)

theorem Memory.below_iff {m : Memory} {n : Nat} : m.below n = true ↔ ∀ c ∈ m, c.1 < n := by
  simp [Memory.below]

/-- A write below a bound keeps every listed address below it. -/
theorem Memory.below_setByte {m : Memory} {n a : Nat} (v : Byte) (h : m.below n = true) (ha : a < n) :
    (m.setByte a v).below n = true := by
  rw [Memory.below_iff] at h ⊢
  intro c hc
  unfold Memory.setByte at hc
  split at hc
  · exact h c (List.mem_filter.mp hc).1
  · rcases Memory.mem_insert.mp hc with rfl | hc
    · exact ha
    · exact h c (List.mem_filter.mp hc).1

/-- The memory after reset is in canonical form. -/
theorem State.reset_mem_wf : State.reset.mem.wf = true := rfl

theorem State.resetWith_mem_wf (c : Config) : (State.resetWith c).mem.wf = true := rfl

end Sys2Proof.Machine
end

