-- ==== Sys2Proof/Laws/Ops.lean ====
section
/-! SUPPORT. One lemma for each shared operation that says everything it can do, and the well-formedness that
every state update keeps. Provers cite these and do not unfold the operations. -/

namespace Sys2Proof.Machine

variable {s t : State} {a n : Nat} {v : Word} {b : Byte} {k : AccessKind} {f : Fault}

/-! ### The bounds check and orFault -/

theorem inRange_iff : s.inRange a n = true ↔ s.fits a n := by simp [State.inRange]

theorem inRange_eq : s.inRange a n = decide (s.fits a n) := rfl

@[simp] theorem orFault_ok {α : Type} (x : α) (g : α → Result) : orFault (.ok x) g = g x := rfl

@[simp] theorem orFault_error {α : Type} (g : α → Result) :
    orFault (.error f : Except Fault α) g = .fault f := rfl

/-- The spec's word of two bytes is the model's read of them (R8, R43). -/
theorem wordAt_eq (s : State) (a : Nat) : s.wordAt a = wordOfBytes (s.byteAt a) (s.byteAt (a + 1)) :=
  (wordOfBytes_eq_ofNat _ _).symm

/-! ### Accessors -/

theorem read8_of_fits (h : s.fits a 1) : read8 s k a = .ok (s.byteAt a) := by
  simp [read8, inRange_eq, h]

theorem read8_of_not_fits (h : ¬ s.fits a 1) : read8 s k a = .error (.addressError a 1 k) := by
  simp [read8, inRange_eq, h, raiseAddressError]

theorem read16_of_fits (h : s.fits a 2) : read16 s k a = .ok (s.wordAt a) := by
  simp [read16, inRange_eq, h, wordAt_eq]

theorem read16_of_not_fits (h : ¬ s.fits a 2) : read16 s k a = .error (.addressError a 2 k) := by
  simp [read16, inRange_eq, h, raiseAddressError]

theorem write8_of_fits (h : s.fits a 1) : write8 s a b = .ok (s.setByte a b) := by
  simp [write8, inRange_eq, h]

theorem write8_of_not_fits (h : ¬ s.fits a 1) : write8 s a b = .error (.addressError a 1 .write) := by
  simp [write8, inRange_eq, h, raiseAddressError]

/-- The state after a 16-bit write. -/
def State.setWord (s : State) (a : Nat) (v : Word) : State :=
  (s.setByte a (highByte v)).setByte (a + 1) (lowByte v)

theorem write16_of_fits (h : s.fits a 2) : write16 s a v = .ok (s.setWord a v) := by
  simp [write16, inRange_eq, h, State.setWord]

theorem write16_of_not_fits (h : ¬ s.fits a 2) :
    write16 s a v = .error (.addressError a 2 .write) := by
  simp [write16, inRange_eq, h, raiseAddressError]

@[simp] theorem State.setWord_cfg : (s.setWord a v).cfg = s.cfg := rfl
@[simp] theorem State.setWord_regs : (s.setWord a v).regs = s.regs := rfl
@[simp] theorem State.setWord_reg (r : Reg) : (s.setWord a v).reg r = s.reg r := rfl
theorem State.setWord_setReg (r : Reg) (w : Word) :
    (s.setReg r w).setWord a v = (s.setWord a v).setReg r w := rfl

theorem State.byteAt_setWord (c : Nat) : (s.setWord a v).byteAt c =
    if c = a then highByte v else if c = a + 1 then lowByte v else s.byteAt c := by
  simp only [State.setWord, State.byteAt_setByte]
  by_cases h : c = a
  · simp [h]
  · simp [h]

@[simp] theorem State.wordAt_setWord : (s.setWord a v).wordAt a = v := by
  rw [wordAt_eq]; simp [State.byteAt_setWord]

@[simp] theorem State.wordAt_setReg (r : Reg) (w : Word) : (s.setReg r w).wordAt a = s.wordAt a := rfl

theorem setWord_sameMemoryBut : SameMemoryBut a 2 s (s.setWord a v) := by
  intro c hc
  rw [State.byteAt_setWord, if_neg (by omega), if_neg (by omega)]

/-! ### Stack primitives -/

/-- Push when the slot exists (R84). -/
theorem push_of_fits (h : s.fits (s.reg .sp).toNat 2) :
    push s v = .ok ((s.setWord (s.reg .sp).toNat v).setReg .sp (s.reg .sp - 2)) := by
  simp [push, write16_of_fits h]

theorem push_of_not_fits (h : ¬ s.fits (s.reg .sp).toNat 2) :
    push s v = .error (.addressError (s.reg .sp).toNat 2 .write) := by
  simp [push, write16_of_not_fits h]

/-- Pop when the slot above exists (R85). -/
theorem popWord_of_fits (h : s.fits (s.reg .sp + 2).toNat 2) :
    popWord s = .ok (s.wordAt (s.reg .sp + 2).toNat, s.setReg .sp (s.reg .sp + 2)) := by
  unfold popWord
  rw [read16_of_fits (s := s.setReg .sp (s.reg .sp + 2)) h]; rfl

theorem popWord_of_not_fits (h : ¬ s.fits (s.reg .sp + 2).toNat 2) :
    popWord s = .error (.addressError (s.reg .sp + 2).toNat 2 .read) := by
  unfold popWord
  rw [read16_of_not_fits (s := s.setReg .sp (s.reg .sp + 2)) h]

/-! ### What keeps a state well formed -/

theorem State.wf_setReg (r : Reg) (w : Word) (h : s.wf) : (s.setReg r w).wf := h

theorem State.wf_setByte (h : s.wf) (ha : a < s.cfg.memSize) : (s.setByte a b).wf :=
  ⟨h.1, Memory.wf_setByte a b h.2.1, Memory.below_setByte b h.2.2 ha⟩

theorem State.wf_setWord (h : s.wf) (ha : s.fits a 2) : (s.setWord a v).wf := by
  have ha : a + 2 ≤ s.cfg.memSize := ha
  exact State.wf_setByte (State.wf_setByte h (by omega)) (by simpa using (by omega : a + 1 < s.cfg.memSize))

/-- Placing bytes from outside keeps a well-formed state well formed and changes only memory. -/
theorem placeBytes_wf (bs : List Byte) (p : Word) (h : s.wf) :
    (placeBytes bs p s).wf ∧ (placeBytes bs p s).regs = s.regs ∧ (placeBytes bs p s).cfg = s.cfg := by
  induction bs generalizing p s with
  | nil => exact ⟨h, rfl, rfl⟩
  | cons c bs ih =>
    unfold placeBytes
    split
    · rename_i hr
      have hr : s.fits p.toNat 1 := inRange_iff.mp hr
      exact ih (p + 1) (State.wf_setByte h (by have : p.toNat + 1 ≤ _ := hr; omega))
    · exact ih (p + 1) h

end Sys2Proof.Machine
end

