-- ==== Sys2Proof/Laws/Exec.lean ====
section
/-! SUPPORT. One equation for each instruction's effect in each of its cases: the one place the meanings are
unfolded. -/

namespace Sys2Proof.Machine

variable {s : State}

theorem exec_movLitReg (lit : Word) (r : Reg) :
    exec (.movLitReg lit r) s = .next (s.setReg r lit) := rfl

theorem exec_movRegReg (src dst : Reg) :
    exec (.movRegReg src dst) s = .next (s.setReg dst (s.reg src)) := rfl

theorem exec_movRegMem (r : Reg) (a : Word) : exec (.movRegMem r a) s =
    if s.fits a.toNat 2 then .next (s.setWord a.toNat (s.reg r))
    else .fault (.addressError a.toNat 2 .write) := by
  split
  · rename_i h; simp [exec, execMovRegMem, write16_of_fits h]
  · rename_i h; simp [exec, execMovRegMem, write16_of_not_fits h]

theorem exec_movMemReg (a : Word) (r : Reg) : exec (.movMemReg a r) s =
    if s.fits a.toNat 2 then .next (s.setReg r (s.wordAt a.toNat))
    else .fault (.addressError a.toNat 2 .read) := by
  split
  · rename_i h; simp [exec, execMovMemReg, read16_of_fits h]
  · rename_i h; simp [exec, execMovMemReg, read16_of_not_fits h]

theorem exec_addRegReg (ra rb : Reg) :
    exec (.addRegReg ra rb) s = .next (s.setReg .acc (s.reg ra + s.reg rb)) := rfl

theorem exec_jmpNotEq (v a : Word) : exec (.jmpNotEq v a) s =
    .next (if v = s.reg .acc then s else s.setReg .ip a) := by
  by_cases h : v = s.reg .acc <;> simp [exec, execJmpNotEq, jumpTaken, h]

theorem exec_pshLit (lit : Word) : exec (.pshLit lit) s =
    if s.fits (s.reg .sp).toNat 2
    then .next ((s.setWord (s.reg .sp).toNat lit).setReg .sp (s.reg .sp - 2))
    else .fault (.addressError (s.reg .sp).toNat 2 .write) := by
  split
  · rename_i h; simp [exec, execPshLit, push_of_fits h]
  · rename_i h; simp [exec, execPshLit, push_of_not_fits h]

theorem exec_pshReg (r : Reg) : exec (.pshReg r) s =
    if s.fits (s.reg .sp).toNat 2
    then .next ((s.setWord (s.reg .sp).toNat (s.reg r)).setReg .sp (s.reg .sp - 2))
    else .fault (.addressError (s.reg .sp).toNat 2 .write) := by
  split
  · rename_i h; simp [exec, execPshReg, push_of_fits h]
  · rename_i h; simp [exec, execPshReg, push_of_not_fits h]

theorem exec_pop (r : Reg) : exec (.pop r) s =
    if s.fits (s.reg .sp + 2).toNat 2
    then .next ((s.setReg .sp (s.reg .sp + 2)).setReg r (s.wordAt (s.reg .sp + 2).toNat))
    else .fault (.addressError (s.reg .sp + 2).toNat 2 .read) := by
  split
  · rename_i h; simp [exec, execPop, popWord_of_fits h]
  · rename_i h; simp [exec, execPop, popWord_of_not_fits h]

theorem exec_unrecognised (op : Byte) : exec (.unrecognised op) s = .next s := rfl

end Sys2Proof.Machine
end

