-- ==== Sys2Proof/Laws/Fetch.lean ====
section
/-! SUPPORT. What fetching an instruction can do: it completes when every fetch access is in range, with IP
past the instruction, or faults with the first access that is not. -/

namespace Sys2Proof.Machine

variable {s : State}

/-- `addr + width` of an access does not fit. -/
def outOfRange (s : State) (x : Access) : Bool := decide (s.cfg.memSize < x.addr + x.width)

theorem fetch8_of_fits (h : s.fits (s.reg .ip).toNat 1) :
    fetch8 s = .ok (s.byteAt (s.reg .ip).toNat, s.setReg .ip (s.reg .ip + 1)) := by
  simp [fetch8, read8_of_fits h]

theorem fetch8_of_not_fits (h : ¬ s.fits (s.reg .ip).toNat 1) :
    fetch8 s = .error (.addressError (s.reg .ip).toNat 1 .fetch) := by
  simp [fetch8, read8_of_not_fits h]

theorem fetch16_of_fits (h : s.fits (s.reg .ip).toNat 2) :
    fetch16 s = .ok (s.wordAt (s.reg .ip).toNat, s.setReg .ip (s.reg .ip + 2)) := by
  simp [fetch16, read16_of_fits h]

theorem fetch16_of_not_fits (h : ¬ s.fits (s.reg .ip).toNat 2) :
    fetch16 s = .error (.addressError (s.reg .ip).toNat 2 .fetch) := by
  simp [fetch16, read16_of_not_fits h]

/-- The bytes an operand takes, at an address of the 16-bit space. -/
def operandBytesAt (s : State) (p : Word) : OperandKind → List Byte
  | .reg8   => [s.byteAt p.toNat]
  | .word16 => [s.byteAt p.toNat, s.byteAt (p.toNat + 1)]

/-- The bytes a list of operands takes, from an address on. -/
def operandsBytesAt (s : State) : Word → List OperandKind → List Byte
  | _, [] => []
  | p, k :: ks => operandBytesAt s p k ++ operandsBytesAt s (p + BitVec.ofNat 16 k.size) ks

theorem fetchOperand_of_fits (k : OperandKind) (h : s.fits (s.reg .ip).toNat k.size) :
    fetchOperand k s = .ok (operandBytesAt s (s.reg .ip) k,
      s.setReg .ip (s.reg .ip + BitVec.ofNat 16 k.size)) := by
  cases k with
  | reg8 => simp [fetchOperand, fetch8_of_fits h, operandBytesAt, OperandKind.size]
  | word16 =>
    simp [fetchOperand, fetch16_of_fits h, operandBytesAt, OperandKind.size, wordBytes, wordAt_eq]

theorem fetchOperand_of_not_fits (k : OperandKind) (h : ¬ s.fits (s.reg .ip).toNat k.size) :
    fetchOperand k s = .error (.addressError (s.reg .ip).toNat k.size .fetch) := by
  cases k with
  | reg8 => simp [fetchOperand, fetch8_of_not_fits h, OperandKind.size]
  | word16 => simp [fetchOperand, fetch16_of_not_fits h, OperandKind.size]

theorem operandBytesAt_setReg (r : Reg) (w : Word) (p : Word) (k : OperandKind) :
    operandBytesAt (s.setReg r w) p k = operandBytesAt s p k := by cases k <;> rfl

theorem operandsBytesAt_setReg (r : Reg) (w : Word) (p : Word) (ks : List OperandKind) :
    operandsBytesAt (s.setReg r w) p ks = operandsBytesAt s p ks := by
  induction ks generalizing p with
  | nil => rfl
  | cons k ks ih => simp [operandsBytesAt, operandBytesAt_setReg, ih]

/-- Everything fetching operands can do. -/
theorem fetchOperands_eq (ks : List OperandKind) (s : State) :
    fetchOperands ks s =
      match (fetchAccesses (s.reg .ip) ks).find? (outOfRange s) with
      | some x => .error (.addressError x.addr x.width .fetch)
      | none   => .ok (operandsBytesAt s (s.reg .ip) ks,
          s.setReg .ip (s.reg .ip + BitVec.ofNat 16 (sizeOfOperands ks))) := by
  induction ks generalizing s with
  | nil => simp [fetchOperands, fetchAccesses, operandsBytesAt, sizeOfOperands]
  | cons k ks ih =>
    by_cases h : s.fits (s.reg .ip).toNat k.size
    · have hn : outOfRange s ⟨(s.reg .ip).toNat, k.size, .fetch⟩ = false := by
        simp [outOfRange]; exact h
      have ho : outOfRange (s.setReg .ip (s.reg .ip + BitVec.ofNat 16 k.size)) = outOfRange s := rfl
      rw [fetchOperands, fetchOperand_of_fits k h, fetchAccesses, List.find?_cons, hn]
      simp only [ih, State.reg_setReg_same, ho]
      cases (fetchAccesses (s.reg .ip + BitVec.ofNat 16 k.size) ks).find? (outOfRange s) with
      | some x => rfl
      | none =>
        simp [operandsBytesAt_setReg, operandsBytesAt, sizeOfOperands, BitVec.add_assoc,
          BitVec.ofNat_add]
    · have hn : outOfRange s ⟨(s.reg .ip).toNat, k.size, .fetch⟩ = true := by
        simp [outOfRange]; exact Nat.lt_of_not_le h
      rw [fetchOperands, fetchOperand_of_not_fits k h, fetchAccesses, List.find?_cons, hn]

theorem ipPlus_zero (s : State) : s.ipPlus 0 = (s.reg .ip).toNat := by simp [State.ipPlus]

/-- In an address space of at most 65536 bytes, operands that are in range are the bytes at the successive
16-bit addresses. -/
theorem operandsBytesAt_getD (ks : List OperandKind) (p : Word) (j : Nat)
    (hw : s.cfg.memSize ≤ 65536) (hf : (fetchAccesses p ks).find? (outOfRange s) = none)
    (hj : j < sizeOfOperands ks) :
    (operandsBytesAt s p ks).getD j 0 = s.byteAt (p + BitVec.ofNat 16 j).toNat := by
  induction ks generalizing p j with
  | nil => simp [sizeOfOperands] at hj
  | cons k ks ih =>
    rw [fetchAccesses, List.find?_eq_none] at hf
    have hk : p.toNat + k.size ≤ s.cfg.memSize := by
      simpa [outOfRange] using hf _ (List.mem_cons_self ..)
    have ht : (fetchAccesses (p + BitVec.ofNat 16 k.size) ks).find? (outOfRange s) = none :=
      List.find?_eq_none.mpr fun x hx => hf x (List.mem_cons_of_mem _ hx)
    have hlen : (operandBytesAt s p k).length = k.size := by cases k <;> rfl
    rw [operandsBytesAt]
    by_cases hlt : j < k.size
    · rw [List.getD_append _ _ _ _ (by omega)]
      cases k with
      | reg8 =>
        obtain rfl : j = 0 := by simp [OperandKind.size] at hlt; exact hlt
        simp [operandBytesAt]
      | word16 =>
        have hk : p.toNat + 2 ≤ s.cfg.memSize := hk
        rcases (by simp [OperandKind.size] at hlt; omega : j = 0 ∨ j = 1) with rfl | rfl
        · simp [operandBytesAt]
        · have : (p + BitVec.ofNat 16 1).toNat = p.toNat + 1 := by
            rw [BitVec.toNat_add]; simp; omega
          rw [this]; simp [operandBytesAt]
    · rw [List.getD_append_right _ _ _ _ (by omega), hlen,
        ih _ _ ht (by simp [sizeOfOperands] at hj; omega), BitVec.add_assoc, ← BitVec.ofNat_add,
        Nat.add_sub_cancel' (Nat.le_of_not_lt hlt)]

/-- The decoder looks at the operand bytes of the layout only. -/
theorem decodeOperands_congr {base : Nat} {op : Byte} {bs cs : List Byte}
    (h : ∀ j, j < sizeOfOperands (layout base op) → bs.getD j 0 = cs.getD j 0) :
    decodeOperands base op bs = decodeOperands base op cs := by
  rcases opcodeOffset_cases base op with ⟨k, hk, -, e⟩ | ⟨-, e⟩
  · interval_cases k <;> simp only [layout, e] at h <;> simp only [decodeOperands, e]
    all_goals first
      | rw [h 0 (by decide), h 1 (by decide), h 2 (by decide), h 3 (by decide)]
      | rw [h 0 (by decide), h 1 (by decide), h 2 (by decide)]
      | rw [h 0 (by decide), h 1 (by decide)]
      | rw [h 0 (by decide)]
  · simp only [decodeOperands, e]

/-- The bytes at IP are those nextInstr decodes. -/
theorem decodeOperands_eq_nextInstr {bs : List Byte}
    (h : ∀ j, j < sizeOfOperands (layout s.cfg.opcodeBase (s.byteAt (s.ipPlus 0))) →
      bs.getD j 0 = s.byteAt (s.ipPlus (j + 1))) :
    decodeOperands s.cfg.opcodeBase (s.byteAt (s.ipPlus 0)) bs = s.nextInstr := by
  refine decodeOperands_congr fun j hj => ?_
  rw [h j hj]
  have : j < 4 := Nat.lt_of_lt_of_le hj (sizeOfOperands_layout_le _ _)
  interval_cases j <;> rfl

/-- The fetch accesses of the next step: the opcode's, then its operands'. -/
def State.fetches (s : State) : List Access :=
  ⟨s.ipPlus 0, 1, .fetch⟩ ::
    fetchAccesses (s.reg .ip + 1) (layout s.cfg.opcodeBase (s.byteAt (s.ipPlus 0)))

/-- The state exec is run in: IP past the instruction. -/
def State.fetched (s : State) : State :=
  s.setReg .ip (s.reg .ip + BitVec.ofNat 16 (instrLength s.cfg.opcodeBase (s.byteAt (s.ipPlus 0))))

/-- Everything fetching an instruction can do: fault with the first access that is out of range, or give the
operands' bytes decoded, with IP past the instruction. -/
theorem fetchInstr_eq (s : State) : fetchInstr s =
    match s.fetches.find? (outOfRange s) with
    | some x => .error (.addressError x.addr x.width .fetch)
    | none   => .ok (decodeOperands s.cfg.opcodeBase (s.byteAt (s.ipPlus 0))
        (operandsBytesAt s (s.reg .ip + 1) (layout s.cfg.opcodeBase (s.byteAt (s.ipPlus 0)))),
        s.fetched) := by
  have e0 := ipPlus_zero s
  by_cases h : s.fits (s.reg .ip).toNat 1
  · have hn : outOfRange s ⟨s.ipPlus 0, 1, .fetch⟩ = false := by
      simp [outOfRange, e0]; exact h
    have ho : outOfRange (s.setReg .ip (s.reg .ip + 1)) = outOfRange s := rfl
    rw [fetchInstr, fetch8_of_fits h, State.fetches, List.find?_cons, hn]
    simp only [fetchOperands_eq, State.reg_setReg_same, ho, e0]
    cases (fetchAccesses (s.reg .ip + 1)
      (layout s.cfg.opcodeBase (s.byteAt (s.reg .ip).toNat))).find? (outOfRange s) with
    | some x => rfl
    | none =>
      simp [operandsBytesAt_setReg, State.fetched, instrLength, BitVec.add_assoc, BitVec.ofNat_add,
        e0]
  · have hn : outOfRange s ⟨s.ipPlus 0, 1, .fetch⟩ = true := by
      simp [outOfRange, e0]; exact Nat.le_of_lt_succ (Nat.lt_of_not_le h)
    rw [fetchInstr, fetch8_of_not_fits h, State.fetches, List.find?_cons, hn, e0]

/-- In a legal address space the instruction fetched is nextInstr. -/
theorem decodeOperands_at (hw : s.cfg.memSize ≤ 65536)
    (hf : s.fetches.find? (outOfRange s) = none) :
    decodeOperands s.cfg.opcodeBase (s.byteAt (s.ipPlus 0))
      (operandsBytesAt s (s.reg .ip + 1) (layout s.cfg.opcodeBase (s.byteAt (s.ipPlus 0)))) =
      s.nextInstr := by
  refine decodeOperands_eq_nextInstr fun j hj => ?_
  have ht : (fetchAccesses (s.reg .ip + 1)
      (layout s.cfg.opcodeBase (s.byteAt (s.ipPlus 0)))).find? (outOfRange s) = none :=
    List.find?_eq_none.mpr fun x hx =>
      List.find?_eq_none.mp hf x (List.mem_cons_of_mem _ hx)
  rw [operandsBytesAt_getD _ _ _ hw ht hj, State.ipPlus, BitVec.add_assoc]
  rw [Nat.add_comm j 1, BitVec.ofNat_add]
  rfl

/-- Everything a step can do in a legal address space: fault with the first fetch that is out of range, or
execute nextInstr with IP past it. -/
theorem step_eq (hw : s.cfg.memSize ≤ 65536) : step s =
    match s.fetches.find? (outOfRange s) with
    | some x => .fault (.addressError x.addr x.width .fetch)
    | none   => exec s.nextInstr s.fetched := by
  rw [step, fetchInstr_eq]
  split
  · rfl
  · rename_i h; rw [orFault_ok, decodeOperands_at hw h]

end Sys2Proof.Machine
end

