-- ==== Sys2Proof/Laws/PerInstr.lean ====
section
/-! SUPPORT. Per-instruction families. EncodedLength: how long an instruction's bytes are and how they begin,
whatever its operands are (spec/30_encoding.md R60, R63). -/

namespace Sys2Proof.Laws.EncodedLength

/-- An instruction's bytes are 1 to 5, and as many at every OPCODE_BASE. -/
def Statement (i : Instr) : Prop :=
  ∀ base base' : Nat, 1 ≤ (encode base i).length ∧ (encode base i).length ≤ 5 ∧
    (encode base' i).length = (encode base i).length

theorem movLitReg (lit : Word) (r : Reg) : Statement (.movLitReg lit r) := fun _ _ => by
  simp [encode, wordBytes]

theorem movRegReg (src dst : Reg) : Statement (.movRegReg src dst) := fun _ _ => by
  simp [encode]

theorem movRegMem (r : Reg) (addr : Word) : Statement (.movRegMem r addr) := fun _ _ => by
  simp [encode, wordBytes]

theorem movMemReg (addr : Word) (r : Reg) : Statement (.movMemReg addr r) := fun _ _ => by
  simp [encode, wordBytes]

theorem addRegReg (ra rb : Reg) : Statement (.addRegReg ra rb) := fun _ _ => by
  simp [encode]

theorem jmpNotEq (value addr : Word) : Statement (.jmpNotEq value addr) := fun _ _ => by
  simp [encode, wordBytes]

theorem pshLit (lit : Word) : Statement (.pshLit lit) := fun _ _ => by
  simp [encode, wordBytes]

theorem pshReg (r : Reg) : Statement (.pshReg r) := fun _ _ => by
  simp [encode]

theorem pop (r : Reg) : Statement (.pop r) := fun _ _ => by
  simp [encode]

theorem unrecognised (op : Byte) : Statement (.unrecognised op) := fun _ _ => by
  simp [encode]

end Sys2Proof.Laws.EncodedLength
end

