-- ==== Sys2Proof/Tests/Slice0.lean ====
section
/-! SUPPORT. Tests, with expected results from spec/95_test_vectors.md and the worked examples of the rules
(the vector's name stands in each comment), the smoke test of WellFormed, and for every obligation with
hypotheses a witness that meets them. -/

namespace Sys2Proof.Tests

open Sys2Proof Sys2Proof.Machine

/-! ### Small states -/

/-- A state at the given configuration: reset, some registers overridden, bytes at IP. -/
def stateOf (c : Config) (ip : Word) (bs : List Byte) (rs : List (Reg × Word)) : State :=
  placeBytes bs ip (rs.foldl (fun s p => s.setReg p.1 p.2) ((State.resetWith c).setReg .ip ip))

/-- The same at the defaults. -/
def vec (ip : Word) (bs : List Byte) (rs : List (Reg × Word)) : State := stateOf Config.default ip bs rs

/-- Overrides of an expected result. -/
def with' (s : State) (rs : List (Reg × Word)) (bs : List (Nat × Byte)) : State :=
  bs.foldl (fun s p => s.setByte p.1 p.2) (rs.foldl (fun s p => s.setReg p.1 p.2) s)

/-- The outcome is exactly this next state. -/
def gives (o : Result) (t : State) : Bool :=
  match o with
  | .next u    => decide (u = t)
  | .fault _   => false
  | .refused _ => false

/-- The outcome is exactly this fault. -/
def faults (o : Result) (f : Fault) : Bool :=
  match o with
  | .next _    => false
  | .fault g   => decide (g = f)
  | .refused _ => false

theorem eq_of_gives {o : Result} {t : State} (h : gives o t = true) : o = .next t := by
  unfold gives at h; split at h <;> simp_all

theorem eq_of_faults {o : Result} {f : Fault} (h : faults o f = true) : o = .fault f := by
  unfold faults at h; split at h <;> simp_all

/-! ### WellFormed: an ill-formed term for each check -/

theorem test_wf_refuses_declared_first : Instr.wf 0x10 (.unrecognised 0x10) = false := by decide
theorem test_wf_refuses_declared_last : Instr.wf 0x10 (.unrecognised 0x18) = false := by decide
theorem test_wf_takes_undeclared :
    Instr.wf 0x10 (.unrecognised 0x0F) = true ∧ Instr.wf 0x10 (.unrecognised 0x19) = true := by decide
theorem test_config_refuses_odd_size : ¬ Config.wf ⟨255, 0x10⟩ := by decide
theorem test_config_refuses_empty_memory : ¬ Config.wf ⟨0, 0x10⟩ := by decide
theorem test_config_refuses_large_memory : ¬ Config.wf ⟨65538, 0x10⟩ := by decide
theorem test_config_refuses_large_base : ¬ Config.wf ⟨65536, 248⟩ := by decide
theorem test_state_refuses_unsorted_memory : ¬ State.wf { State.reset with mem := [(2, 1), (1, 1)] } := by
  decide
theorem test_state_refuses_listed_zero : ¬ State.wf { State.reset with mem := [(2, 0)] } := by decide
theorem test_state_refuses_absent_address : ¬ State.wf { State.reset with mem := [(65536, 1)] } := by
  decide

/-! ### Decode: words written out bit by bit from R63 and R66 (V2, V9, V15, S7, S2, S3, K1, K13, K6, U2) -/

theorem test_decode_movLitReg :
    decode 0x10 [0b00010000, 0b10111110, 0b11101111, 0b00001110] = .ok (.movLitReg 0xBEEF .r1, []) := by
  decide
theorem test_decode_movRegReg :
    decode 0x10 [0b00010001, 0b00000010, 0b00000011] = .ok (.movRegReg .r1 .r2, []) := by decide
theorem test_decode_movRegMem :
    decode 0x10 [0b00010010, 0b00000010, 0b00000001, 0b00000000] = .ok (.movRegMem .r1 0x0100, []) := by
  decide
theorem test_decode_movMemReg :
    decode 0x10 [0b00010011, 0b00010000, 0b00000000, 0b00000010] = .ok (.movMemReg 0x1000 .r1, []) := by
  decide
theorem test_decode_addRegReg :
    decode 0x10 [0b00010100, 0b00000010, 0b00000011] = .ok (.addRegReg .r1 .r2, []) := by decide
theorem test_decode_jmpNotEq :
    decode 0x10 [0b00010101, 0b00000000, 0b00000011, 0b00000000, 0b00000100] =
      .ok (.jmpNotEq 0x0003 0x0004, []) := by decide
theorem test_decode_pshLit :
    decode 0x10 [0b00010110, 0b00010010, 0b00110100] = .ok (.pshLit 0x1234, []) := by decide
theorem test_decode_pshReg : decode 0x10 [0b00010111, 0b00010110] = .ok (.pshReg .sp, []) := by decide
theorem test_decode_pop : decode 0x10 [0b00011000, 0b00000010] = .ok (.pop .r1, []) := by decide
theorem test_decode_unrecognised : decode 0x10 [0b11111111, 1] = .ok (.unrecognised 0xFF, [1]) := by decide

/-- At another OPCODE_BASE the opcode bytes shift with it (00_scope.md R6). -/
theorem test_decode_other_base : decode 0 [0x08, 0x05] = .ok (.pop .r4, []) := by decide

/-- The decoder boundary table and the register-byte table of section 2.5. -/
theorem test_lengths :
    [0x0F, 0x10, 0x11, 0x12, 0x13, 0x14, 0x15, 0x16, 0x17, 0x18, 0x19].map (instrLength 0x10) =
      [1, 4, 3, 4, 4, 3, 5, 3, 2, 2, 1] := by decide
theorem test_register_bytes :
    [0x00, 0x0B, 0x0C, 0x0D, 0x0E, 0x16, 0x17, 0x18, 0x64, 0xFB, 0xFC, 0xFF].map Reg.ofByte =
      [.ip, .fp, .ip, .acc, .r1, .sp, .fp, .ip, .r3, .fp, .ip, .r2] := by decide
theorem test_decode_truncated : decode 0x10 [0x15, 0, 3, 0] = .error (.truncated 5 4) := by decide
/-- The table's numbering: byte 0 in bits 7:0 (V2). -/
theorem test_decodeTableWord : decodeTableWord 32 0x0EEFBE10 = some (.movLitReg 0xBEEF .r1) := by decide
theorem test_decodeTableWord_opcode_only : decodeTableWord 8 0x15 = some (.jmpNotEq 0 0) := by decide
theorem test_withFetchWord : gives (step (State.reset.withFetchWord 32 0x02010010))
    (with' State.reset [(.r1, 1), (.ip, 4)] [(0, 0x10), (2, 1), (3, 2)]) = true := by decide

/-! ### One step each, from the vectors of section 2 -/

/-- V7: IP wraps after the opcode fetch. -/
theorem test_movLitReg_wraps : gives (step (vec 0xFFFF [0x10, 0x12, 0x34, 0x02] []))
    (with' (vec 0xFFFF [0x10, 0x12, 0x34, 0x02] []) [(.r1, 0x1234), (.ip, 3)] []) = true := by decide
/-- V6: a 2-byte fetch at 0xFFFF faults. -/
theorem test_movLitReg_faults : faults (step (vec 0xFFFE [0x10, 0x00] []))
    (.addressError 0xFFFF 2 .fetch) = true := by decide
/-- V10: source IP reads the next instruction's address. -/
theorem test_movRegReg_from_ip : gives (step (vec 0x0010 [0x11, 0x00, 0x02] []))
    (with' (vec 0x0010 [0x11, 0x00, 0x02] []) [(.r1, 0x13), (.ip, 0x13)] []) = true := by decide
/-- V11: destination IP is an indirect jump. -/
theorem test_movRegReg_to_ip : gives (step (vec 0x0010 [0x11, 0x02, 0x00] [(.r1, 0x200)]))
    (with' (vec 0x0010 [0x11, 0x02, 0x00] [(.r1, 0x200)]) [(.ip, 0x200)] []) = true := by decide
/-- V20: a store over the executing instruction's own address bytes. -/
theorem test_movRegMem_over_itself : gives (step (vec 0x0020 [0x12, 0x02, 0x00, 0x22] [(.r1, 0xABCD)]))
    (with' (vec 0x0020 [0x12, 0x02, 0x00, 0x22] [(.r1, 0xABCD)]) [(.ip, 0x24)]
      [(0x22, 0xAB), (0x23, 0xCD)]) = true := by decide
/-- V17: a write at 0xFFFF faults. -/
theorem test_movRegMem_faults : faults (step (vec 0x0020 [0x12, 0x02, 0xFF, 0xFF] [(.r1, 0xABCD)]))
    (.addressError 0xFFFF 2 .write) = true := by decide
/-- V24: reads its own opcode and first operand byte as data. -/
theorem test_movMemReg_reads_code : gives (step (vec 0x0000 [0x13, 0x00, 0x00, 0x02] []))
    (with' (vec 0x0000 [0x13, 0x00, 0x00, 0x02] []) [(.r1, 0x1300), (.ip, 4)] []) = true := by decide
/-- V23: destination IP jumps through a memory word. -/
theorem test_movMemReg_to_ip :
    gives (step ((vec 0x0000 [0x13, 0x02, 0x00, 0x00] []).setByte 0x200 0x03))
      (with' (vec 0x0000 [0x13, 0x02, 0x00, 0x00] []) [(.ip, 0x300)] [(0x200, 0x03)]) = true := by decide
/-- A6: ACC doubled with wrap. -/
theorem test_addRegReg_doubles_acc : gives (step (vec 0 [0x14, 0x01, 0x01] [(.acc, 0x9000)]))
    (with' (vec 0 [0x14, 0x01, 0x01] []) [(.acc, 0x2000), (.ip, 3)] []) = true := by decide
/-- A7: source IP is old IP + 3. -/
theorem test_addRegReg_ip : gives (step (vec 0x0100 [0x14, 0x00, 0x02] [(.r1, 1)]))
    (with' (vec 0x0100 [0x14, 0x00, 0x02] [(.r1, 1)]) [(.acc, 0x104), (.ip, 0x103)] []) = true := by
  decide
/-- J4: the values differ in one bit, taken. -/
theorem test_jmpNotEq_taken : gives (step (vec 0x0040 [0x15, 0xFF, 0xFF, 0x80, 0x00] [(.acc, 0xFFFE)]))
    (with' (vec 0x0040 [0x15, 0xFF, 0xFF, 0x80, 0x00] [(.acc, 0xFFFE)]) [(.ip, 0x8000)] []) = true := by
  decide
/-- J5: not taken at the top of memory, IP wraps. -/
theorem test_jmpNotEq_not_taken : gives (step (vec 0xFFFB [0x15, 0x00, 0x01, 0x00, 0x02] [(.acc, 1)]))
    (with' (vec 0xFFFB [0x15, 0x00, 0x01, 0x00, 0x02] [(.acc, 1)]) [(.ip, 0)] []) = true := by decide
/-- K2: odd SP, which wraps below zero. -/
theorem test_pshLit_wraps : gives (step (vec 0x0010 [0x16, 0x12, 0x34] [(.sp, 1)]))
    (with' (vec 0x0010 [0x16, 0x12, 0x34] []) [(.sp, 0xFFFF), (.ip, 0x13)] [(1, 0x12), (2, 0x34)]) =
      true := by decide
/-- K3: a push at 0xFFFF faults. -/
theorem test_pshLit_faults : faults (step (vec 0x0010 [0x16, 0x12, 0x34] [(.sp, 0xFFFF)]))
    (.addressError 0xFFFF 2 .write) = true := by decide
/-- K4: PSH_REG SP pushes the old SP. -/
theorem test_pshReg_sp : gives (step (vec 0x0010 [0x17, 0x0A] [(.sp, 0x8000)]))
    (with' (vec 0x0010 [0x17, 0x0A] []) [(.sp, 0x7FFE), (.ip, 0x12)] [(0x8000, 0x80)]) = true := by
  decide
/-- K5: PSH_REG IP pushes old IP + 2. -/
theorem test_pshReg_ip : gives (step (vec 0x0010 [0x17, 0x00] []))
    (with' (vec 0x0010 [0x17, 0x00] []) [(.sp, 0xFFFC), (.ip, 0x12)] [(0xFFFF, 0x12)]) = true := by
  decide
/-- K7: POP SP leaves the popped word in SP. -/
theorem test_pop_sp :
    gives (step (with' (vec 0x0010 [0x18, 0x0A] [(.sp, 0x9000)]) [] [(0x9002, 0x44), (0x9003, 0x44)]))
      (with' (vec 0x0010 [0x18, 0x0A] []) [(.sp, 0x4444), (.ip, 0x12)]
        [(0x9002, 0x44), (0x9003, 0x44)]) = true := by decide
/-- K9: the read of a POP faults at the incremented SP. -/
theorem test_pop_faults : faults (step (vec 0x0010 [0x18, 0x02] [(.sp, 0xFFFD), (.r1, 0x5555)]))
    (.addressError 0xFFFF 2 .read) = true := by decide
/-- U5: a no-op at 0xFFFF wraps IP. -/
theorem test_unrecognised_wraps : gives (step (vec 0xFFFF [0x00] []))
    (with' (vec 0xFFFF [0x00] []) [(.ip, 0)] []) = true := by decide
/-- U6: an opcode fetch beyond a small memory faults. -/
theorem test_fetch_beyond_memory : faults (step (stateOf ⟨256, 0x10⟩ 0x0100 [] []))
    (.addressError 0x0100 1 .fetch) = true := by decide

/-! ### The driver (section 2.6, K11) -/

def session : Session := ⟨State.reset, false⟩

/-- H4. -/
theorem test_load_then_read :
    (session.run [.load 0x1000 0, .load 0x1001 1, .readMem 0x0FFF 4]).2 =
      [.ok, .ok, .bytes [0, 0, 1, 0]] := by decide
/-- H1, H5, H6, H8. -/
theorem test_inspection :
    (session.run [.readReg 10, .readReg 0, .readReg 12, .readMem 0xFFFF 2, .load 0x10000 0]).2 =
      [.value 0xFFFE, .value 0, .fault (.unknownRegister 12), .fault (.addressError 0xFFFF 2 .read),
        .fault (.addressError 0x10000 1 .write)] := by decide
/-- H7, and LOAD refused after the first STEP (R142). -/
theorem test_step_then_load_refused :
    session.run [.step, .readReg 0, .load 0 1] =
      (⟨State.reset.setReg .ip 1, true⟩, [.ok, .value 1, .refused .loadAfterFirstStep]) := by decide
/-- H2. -/
theorem test_reset_small : (State.resetWith ⟨256, 0x10⟩).reg .sp = 0x00FE := by decide
/-- K11: a pop on the empty stack of a small memory faults and changes nothing. -/
theorem test_pop_empty_small :
    Session.transact ⟨stateOf ⟨256, 0x10⟩ 0 [0x18, 0x02] [], false⟩ .step =
      (⟨stateOf ⟨256, 0x10⟩ 0 [0x18, 0x02] [], true⟩, .fault (.addressError 0x0100 2 .read)) := by decide

/-! ### Witnesses: the hypotheses of each obligation are met, clause by clause, at boundary values -/

theorem witness_DecodeInvertsEncode : (247 : Nat) ≤ 247 ∧ (Instr.pop .fp).wf 247 = true ∧
    (Instr.unrecognised 0xF6).wf 247 = true := by decide

theorem witness_DecodeReadsEveryByteOfItsFormat_offsets :
    ∀ k ∈ [0, 1, 2, 3, 4, 5, 6, 7, 8], (opcodeByte 247 k).toNat = 247 + k ∧
      (opcodeByte 0 k).toNat = 0 + k := by decide
theorem witness_DecodeReadsEveryByteOfItsFormat_operands :
    Reg.r2.number = (0xFF : Byte).toNat % 12 ∧ Reg.ip.number = (0x00 : Byte).toNat % 12 ∧
      Reg.fp.number = (0x0B : Byte).toNat % 12 ∧
      ((0x0F : Byte).toNat < 0x10 ∨ 0x10 + 8 < (0x0F : Byte).toNat) ∧
      ((0x19 : Byte).toNat < 0x10 ∨ 0x10 + 8 < (0x19 : Byte).toNat) := by decide

theorem witness_LengthIsKnownFromByteZero :
    (2 = if 0x10 ≤ (0x18 : Byte).toNat ∧ (0x18 : Byte).toNat ≤ 0x10 + 8
      then [4, 3, 4, 4, 3, 5, 3, 2, 2].getD ((0x18 : Byte).toNat - 0x10) 0 else 1) ∧
    (2 ≤ ([0] : List Byte).length + 1 ∧ ([] : List Byte).length + 1 < 2) := by decide

theorem witness_DecodedInstructionReencodes :
    decode 0x10 (0x18 :: [0xFF, 7]) = .ok (.pop .r2, [7]) := by decide

theorem witness_ResetValues : Config.wf ⟨2, 0⟩ ∧ Config.wf ⟨65536, 247⟩ ∧
    Session.construct ⟨2, 0⟩ = .ok ⟨State.resetWith ⟨2, 0⟩, false⟩ ∧
    Session.construct ⟨65536, 247⟩ = .ok ⟨State.resetWith ⟨65536, 247⟩, false⟩ := by decide

theorem witness_ResetIsWellFormed : Config.wf Config.default ∧ ¬ Config.wf ⟨3, 0⟩ := by decide

theorem witness_MemWriteChangesTheAddressedBytesOnly :
    State.reset.fits 65534 2 ∧ ¬ State.reset.fits 65535 2 ∧ State.reset.fits 65535 1 ∧
      ¬ State.reset.fits 65536 1 := by decide

theorem witness_MemReadGivesTheBytesLastWritten :
    State.reset.fits 65535 1 ∧ ¬ State.reset.fits 65536 1 ∧ State.reset.fits 65534 2 ∧
      ¬ State.reset.fits 65535 2 ∧
      write16 State.reset 65534 0x1234 =
        .ok ((State.reset.setByte 65534 0x12).setByte 65535 0x34) := by decide

theorem witness_CanonicalMemoriesReadingAlikeAreEqual :
    Memory.wf [(5, 1), (7, 2)] = true ∧ Memory.wf (Memory.setByte [(7, 2)] 5 1) = true ∧
      ∀ a, Memory.byteAt [(5, 1), (7, 2)] a = Memory.byteAt (Memory.setByte [(7, 2)] 5 1) a :=
  ⟨by decide, by decide, fun _ => rfl⟩

/-- V8's bytes: the last operand byte is the last byte of memory. -/
theorem witness_StepRunsTheDecodedInstruction :
    let s := vec 0xFFFC [0x10, 0x12, 0x34, 0x02] []
    s.cfg.wf ∧ decode s.cfg.opcodeBase [0x10, 0x12, 0x34, 0x02] = .ok (.movLitReg 0x1234 .r1, []) ∧
      (∀ k, k < 4 → s.byteAt (s.ipPlus k) = [0x10, 0x12, 0x34, 0x02].getD k 0) ∧
      s.fits (s.ipPlus 0) 1 ∧
      ∀ x ∈ fetchAccesses (s.reg .ip + 1) (layout s.cfg.opcodeBase 0x10), s.fits x.addr x.width := by
  decide

theorem witness_PlacedWordIsRunFirst : decodeTableWord 40 0x0400030015 = some (.jmpNotEq 3 4) := by decide

theorem witness_StepFaultsAtItsFirstOutOfRangeAccess :
    let ok := vec 0xFFFC [0x10, 0x12, 0x34, 0x02] []
    let bad := vec 0x0010 [0x18, 0x02] [(.sp, 0xFFFD)]
    ok.cfg.wf ∧ bad.cfg.wf ∧
    ok.accesses.find? (fun x => decide (ok.cfg.memSize < x.addr + x.width)) = none ∧
    bad.accesses.find? (fun x => decide (bad.cfg.memSize < x.addr + x.width)) =
      some ⟨0xFFFF, 2, .read⟩ := by decide

theorem witness_NoEncodingIsEverRejected :
    step (vec 0xFFFE [0x10, 0x00] []) = .fault (.addressError 0xFFFF 2 .fetch) := eq_of_faults (by decide)

theorem witness_DefaultSizeFaultsOnlyAtTopByte :
    (vec 0xFFFE [0x10, 0x00] []).cfg.memSize = 65536 ∧
      step (vec 0xFFFE [0x10, 0x00] []) = .fault (.addressError 0xFFFF 2 .fetch) :=
  ⟨by decide, eq_of_faults (by decide)⟩

/-- A store at the last word of memory, for every statement about a well-formed state and its next one. -/
def storing : State := vec 0x0020 [0x12, 0x02, 0xFF, 0xFE] [(.r1, 0xABCD)]
def stored : State := with' storing [(.ip, 0x24)] [(0xFFFE, 0xAB), (0xFFFF, 0xCD)]

theorem witness_StepKeepsWellFormed : storing.wf ∧ step storing = .next stored :=
  ⟨by decide, eq_of_gives (by decide)⟩

theorem witness_StepChangesOnlyWhatItsInstructionWrites :
    storing.cfg.wf ∧ step storing = .next stored ∧
      (∀ x ∈ dataAccesses storing storing.nextInstr,
        x.kind = .write → 0xFFFD < x.addr ∨ x.addr + x.width ≤ 0xFFFD) :=
  ⟨by decide, eq_of_gives (by decide), by decide⟩

def jumping (acc : Word) : State := vec 0x0007 [0x15, 0x00, 0x03, 0x00, 0x04] [(.acc, acc)]

theorem witness_IpAdvancesUnlessOverwritten_taken :
    (jumping 1).cfg.wf ∧ step (jumping 1) = .next ((jumping 1).setReg .ip 4) ∧
      (jumping 1).nextInstr = .jmpNotEq 3 4 ∧ 3 ≠ (jumping 1).reg .acc :=
  ⟨by decide, eq_of_gives (by decide), by decide, by decide⟩
theorem witness_IpAdvancesUnlessOverwritten_not_taken :
    step (jumping 3) = .next ((jumping 3).setReg .ip 0x0C) ∧
      (jumping 3).nextInstr = .jmpNotEq 3 4 ∧ 3 = (jumping 3).reg .acc ∧
      Reg.ip ∉ (jumping 3).nextInstr.writes :=
  ⟨eq_of_gives (by decide), by decide, by decide, by decide⟩

theorem witness_UnnamedRegisterHasNoInfluence :
    storing.cfg.wf ∧ Reg.fp ≠ .ip ∧ Reg.fp ∉ storing.nextInstr.uses ∧ Reg.acc ∉ storing.nextInstr.uses := by
  decide

theorem witness_UnaccessedByteHasNoInfluence :
    storing.cfg.wf ∧ (∀ x ∈ storing.accesses, 0x1F < x.addr ∨ x.addr + x.width ≤ 0x1F) ∧
      (∀ x ∈ storing.accesses, 0xFFFD < x.addr ∨ x.addr + x.width ≤ 0xFFFD) := by decide

/-- The faulting clause of both: a POP whose read is out of range. -/
theorem witness_Influence_faulting :
    let s := vec 0x0010 [0x18, 0x02] [(.sp, 0xFFFD)]
    s.cfg.wf ∧ step s = .fault (.addressError 0xFFFF 2 .read) ∧ Reg.fp ∉ s.nextInstr.uses ∧
      (∀ x ∈ s.accesses, 0x12 < x.addr ∨ x.addr + x.width ≤ 0x12) :=
  ⟨by decide, eq_of_faults (by decide), by decide, by decide⟩

theorem witness_StepIsBounded : step storing = .next stored := eq_of_gives (by decide)

/-- A store at the very next instruction's address. -/
theorem witness_NextFetchSeesTheStoredBytes :
    let s := vec 0x0020 [0x12, 0x02, 0x00, 0x24] [(.r1, 0x1805)]
    let t := with' s [(.ip, 0x24)] [(0x24, 0x18), (0x25, 0x05)]
    s.cfg.wf ∧ step s = .next t ∧ s.nextInstr = .movRegMem .r1 0x24 ∧ t.reg .ip = 0x24 :=
  ⟨by decide, eq_of_gives (by decide), by decide, by decide⟩

/-- J1. -/
theorem witness_SelfJumpSpinsForever :
    let s := vec 0x0040 [0x15, 0x00, 0x00, 0x00, 0x40] [(.acc, 1)]
    s.opcodeIs 5 ∧ s.fits (s.ipPlus 1) 2 ∧ s.fits (s.ipPlus 3) 2 ∧ s.wordAt (s.ipPlus 1) ≠ s.reg .acc ∧
      s.wordAt (s.ipPlus 3) = s.reg .ip := by decide

theorem witness_ZeroMemoryRunsAsNoOps :
    State.reset.cfg.memSize = 65536 ∧ 1 ≤ State.reset.cfg.opcodeBase ∧ ∀ a, State.reset.byteAt a = 0 :=
  ⟨by decide, by decide, fun _ => rfl⟩

theorem witness_MovRegMemCompletes_and_MovMemRegCompletes :
    State.reset.fits (0xFFFE : Word).toNat 2 ∧ ¬ State.reset.fits (0xFFFF : Word).toNat 2 := by decide

/-- The last slot that exists, and 0xFFFF, for PSH_LIT, PSH_REG, the round trip and the call idiom. -/
theorem witness_push :
    State.reset.fits (State.reset.reg .sp).toNat 2 ∧
      ¬ (vec 0 [] [(.sp, 0xFFFF)]).fits ((vec 0 [] [(.sp, 0xFFFF)]).reg .sp).toNat 2 := by decide
theorem witness_PopCompletes :
    State.reset.fits (State.reset.reg .sp + 2).toNat 2 ∧
      ¬ (vec 0 [] [(.sp, 0xFFFD)]).fits ((vec 0 [] [(.sp, 0xFFFD)]).reg .sp + 2).toNat 2 := by decide

theorem witness_PushThenPopGivesTheValueBack :
    Reg.r2 ≠ .sp ∧ State.reset.fits (State.reset.reg .sp).toNat 2 := by decide

/-- Three words from SP = 4: the lowest slot is address 0. -/
theorem witness_StackIsLastInFirstOut :
    let s := vec 0x0100 [] [(.sp, 4)]
    Reg.r1 ≠ .sp ∧ s.fits (s.reg .sp).toNat 2 ∧
      2 * ([0x1111, 0x2222, 0x3333] : List Word).length ≤ (s.reg .sp).toNat + 2 := by decide

theorem witness_CallIdiomReturns :
    let s := State.reset
    let u := with' s [(.sp, 0xFFFC), (.ip, 0x20)] [(0xFFFF, 0x0B)]
    let w := u.setReg .ip 0x23
    s.fits (s.reg .sp).toNat 2 ∧ w.cfg = u.cfg ∧ w.reg .sp = u.reg .sp ∧
      w.wordAt (s.reg .sp).toNat = u.wordAt (s.reg .sp).toNat := by decide

/-! The whole-instruction statements: each instruction at the place where its last byte is the last of
memory, or its data access at the last word; and for the faulting clauses an access one byte higher. -/

theorem witness_MovLitRegFromItsBytes :
    let s := vec 0xFFFC [0x10, 0x12, 0x34, 0xFF] []
    s.opcodeIs 0 ∧ s.fits (s.ipPlus 1) 2 ∧ s.fits (s.ipPlus 3) 1 ∧ s.operandIs 3 .r2 := by decide
theorem witness_MovRegRegFromItsBytes :
    let s := vec 0xFFFD [0x11, 0x0C, 0x17] []
    s.opcodeIs 1 ∧ s.fits (s.ipPlus 1) 1 ∧ s.fits (s.ipPlus 2) 1 ∧ s.operandIs 1 .ip ∧
      s.operandIs 2 .fp := by decide
theorem witness_MovRegMemFromItsBytes :
    let s := vec 0xFFFC [0x12, 0x02, 0xFF, 0xFE] []
    s.opcodeIs 2 ∧ s.fits (s.ipPlus 1) 1 ∧ s.fits (s.ipPlus 2) 2 ∧ s.operandIs 1 .r1 ∧
      s.fits (s.wordAt (s.ipPlus 2)).toNat 2 := by decide
theorem witness_MovRegMemFromItsBytes_faulting :
    let s := vec 0xFFFC [0x12, 0x00, 0xFF, 0xFF] []
    s.opcodeIs 2 ∧ s.fits (s.ipPlus 1) 1 ∧ s.fits (s.ipPlus 2) 2 ∧ s.operandIs 1 .ip ∧
      ¬ s.fits (s.wordAt (s.ipPlus 2)).toNat 2 := by decide
theorem witness_MovMemRegFromItsBytes :
    let s := vec 0xFFFC [0x13, 0xFF, 0xFE, 0x00] []
    s.opcodeIs 3 ∧ s.fits (s.ipPlus 1) 2 ∧ s.fits (s.ipPlus 3) 1 ∧ s.operandIs 3 .ip ∧
      s.fits (s.wordAt (s.ipPlus 1)).toNat 2 := by decide
theorem witness_MovMemRegFromItsBytes_faulting :
    let s := vec 0xFFFC [0x13, 0xFF, 0xFF, 0x0B] []
    s.opcodeIs 3 ∧ s.fits (s.ipPlus 1) 2 ∧ s.fits (s.ipPlus 3) 1 ∧ s.operandIs 3 .fp ∧
      ¬ s.fits (s.wordAt (s.ipPlus 1)).toNat 2 := by decide
theorem witness_AddRegRegFromItsBytes :
    let s := vec 0xFFFD [0x14, 0x00, 0x01] []
    s.opcodeIs 4 ∧ s.fits (s.ipPlus 1) 1 ∧ s.fits (s.ipPlus 2) 1 ∧ s.operandIs 1 .ip ∧
      s.operandIs 2 .acc := by decide
theorem witness_JmpNotEqFromItsBytes :
    let s := vec 0xFFFB [0x15, 0x00, 0x01, 0x00, 0x02] [(.acc, 1)]
    s.opcodeIs 5 ∧ s.fits (s.ipPlus 1) 2 ∧ s.fits (s.ipPlus 3) 2 ∧
      s.wordAt (s.ipPlus 1) = s.reg .acc ∧ s.wordAt (s.ipPlus 1) ≠ (s.setReg .acc 2).reg .acc := by decide
theorem witness_PshLitFromItsBytes :
    let s := vec 0xFFFD [0x16, 0x12, 0x34] []
    s.opcodeIs 6 ∧ s.fits (s.ipPlus 1) 2 ∧ s.fits (s.reg .sp).toNat 2 ∧
      ¬ (s.setReg .sp 0xFFFF).fits ((s.setReg .sp 0xFFFF).reg .sp).toNat 2 := by decide
theorem witness_PshRegFromItsBytes :
    let s := vec 0xFFFE [0x17, 0x0A] []
    s.opcodeIs 7 ∧ s.fits (s.ipPlus 1) 1 ∧ s.operandIs 1 .sp ∧ s.fits (s.reg .sp).toNat 2 ∧
      ¬ (s.setReg .sp 0xFFFF).fits ((s.setReg .sp 0xFFFF).reg .sp).toNat 2 := by decide
/-- SP wraps to 0 on the completing side, and reaches 0xFFFF on the faulting one. -/
theorem witness_PopFromItsBytes :
    let s := vec 0xFFFE [0x18, 0x0A] [(.sp, 0xFFFE)]
    let f := s.setReg .sp 0xFFFD
    s.opcodeIs 8 ∧ s.fits (s.ipPlus 1) 1 ∧ s.operandIs 1 .sp ∧ s.fits (s.reg .sp + 2).toNat 2 ∧
      f.opcodeIs 8 ∧ f.fits (f.ipPlus 1) 1 ∧ f.operandIs 1 .sp ∧ ¬ f.fits (f.reg .sp + 2).toNat 2 := by
  decide
theorem witness_UnrecognisedOpcodeFromItsByte :
    let lo := vec 0xFFFF [0x0F] []
    let hi := vec 0xFFFF [0x19] []
    lo.fits (lo.ipPlus 0) 1 ∧ (lo.byteAt (lo.ipPlus 0)).toNat < lo.cfg.opcodeBase ∧
      hi.fits (hi.ipPlus 0) 1 ∧ hi.cfg.opcodeBase + 8 < (hi.byteAt (hi.ipPlus 0)).toNat := by decide
theorem witness_JmpNotEqCompletes : (1 : Word) ≠ State.reset.reg .acc ∧ 0 = State.reset.reg .acc := by decide

theorem witness_FaultedStepRepeatsForever :
    step (Session.machine ⟨vec 0xFFFE [0x10, 0x00] [], false⟩) =
      .fault (.addressError 0xFFFF 2 .fetch) := eq_of_faults (by decide)
theorem witness_InspectionReadsAndChangesNothing :
    Reg.fp.number = 11 ∧ State.reset.fits 65535 1 ∧ State.reset.fits 65536 0 ∧ ¬ State.reset.fits 65536 1 ∧
      ¬ State.reset.fits 65537 0 := by decide
theorem witness_LoadWritesOneByteBeforeTheFirstStep :
    session.stepped = false ∧ session.machine.fits 65535 1 ∧ ¬ session.machine.fits 65536 1 ∧
      (session.transact .step).1.stepped = true := by decide
theorem witness_LoadsCommute : session.machine.wf ∧ (65535 : Nat) ≠ 0 := by decide
theorem witness_TransactionsKeepTheEngineWellFormed :
    session.machine.wf ∧ (session.transact .step).1.machine.wf ∧ Transaction.readReg 0 ≠ .step ∧
      (session.transact .step).1.stepped = true := by decide

end Sys2Proof.Tests
end

section
/-! The values after reset (spec/10_state.md R32): what `State.resetWith` holds in each field, and that RESET
with legal parameters constructs exactly that state. -/

namespace Sys2Proof.Machine

/-! ### The reset state, field by field -/

@[simp] theorem State.resetWith_cfg (c : Config) : (State.resetWith c).cfg = c := rfl

theorem State.resetWith_reg_of_ne (c : Config) {r : Reg} (hsp : r ≠ .sp) (hfp : r ≠ .fp) :
    (State.resetWith c).reg r = 0 := by
  cases r
  case sp => exact absurd rfl hsp
  case fp => exact absurd rfl hfp
  all_goals rfl

theorem State.resetWith_reg_sp (c : Config) :
    (State.resetWith c).reg .sp = BitVec.ofNat 16 (c.memSize - 2) := rfl

theorem State.resetWith_reg_fp (c : Config) :
    (State.resetWith c).reg .fp = BitVec.ofNat 16 (c.memSize - 2) := rfl

@[simp] theorem State.resetWith_byteAt (c : Config) (a : Nat) : (State.resetWith c).byteAt a = 0 := rfl

/-- The top of the stack area is an address a word can hold: R6 bounds MEM_SIZE by 65536, so SP and FP are not
reduced modulo 65536 at reset. -/
theorem toNat_ofNat_memSize_sub_two {c : Config} (h : c.wf) :
    (BitVec.ofNat 16 (c.memSize - 2)).toNat = c.memSize - 2 := by
  obtain ⟨-, hmin, hmax, -⟩ := h
  rw [BitVec.toNat_ofNat, Nat.mod_eq_of_lt (by omega)]

/-! ### RESET -/

theorem Session.construct_of_wf {c : Config} (h : c.wf) :
    Session.construct c = .ok ⟨State.resetWith c, false⟩ := if_pos h

/-- Settles O6: RESET answers `State.resetWith`, whose fields hold R32's values. -/
theorem resetValues : Obligations.ResetValues := by
  intro c x hwf hx
  obtain rfl : ⟨State.resetWith c, false⟩ = x :=
    Except.ok.inj ((Session.construct_of_wf hwf).symm.trans hx)
  have htop := toNat_ofNat_memSize_sub_two hwf
  refine ⟨State.resetWith_cfg c, fun r => State.resetWith_reg_of_ne c, ?sp, ?fp, State.resetWith_byteAt c⟩
  case sp => rw [State.resetWith_reg_sp, htop]
  case fp => rw [State.resetWith_reg_fp, htop]

end Sys2Proof.Machine
end

section
/-! Memory writes (spec/20_memory.md R42): the bytes that a completed write leaves at the written addresses,
and the bytes it leaves alone. -/

namespace Sys2Proof.Machine

variable (s : State) (addr : Nat)

/-- The byte at the address itself is the most significant one (R43). -/
theorem State.toNat_byteAt_setWord_same (v : Word) :
    ((s.setWord addr v).byteAt addr).toNat = v.toNat / 256 := by
  rw [State.byteAt_setWord, if_pos rfl, highByte_toNat]

theorem State.toNat_byteAt_setWord_succ (v : Word) :
    ((s.setWord addr v).byteAt (addr + 1)).toNat = v.toNat % 256 := by
  rw [State.byteAt_setWord, if_neg (Nat.succ_ne_self addr), if_pos rfl, lowByte_toNat]

theorem setByte_sameMemoryBut (b : Byte) : SameMemoryBut addr 1 s (s.setByte addr b) := by
  intro c hc
  exact State.byteAt_setByte_ne s b (by omega)

/-- Settles O10: one case for each width on each side of the bounds check. A write that fits answers `setWord`
or `setByte`; one that does not fit answers the error and no state. -/
theorem memWriteChangesTheAddressedBytesOnly : Obligations.MemWriteChangesTheAddressedBytesOnly := by
  intro s addr v b
  refine ⟨fun hfits => ?word, write16_of_not_fits, fun hfits => ?byte, write8_of_not_fits⟩
  case word =>
    exact ⟨s.setWord addr v, write16_of_fits hfits, s.toNat_byteAt_setWord_same addr v,
      s.toNat_byteAt_setWord_succ addr v, setWord_sameMemoryBut, State.setWord_regs, State.setWord_cfg⟩
  case byte =>
    exact ⟨s.setByte addr b, write8_of_fits hfits, s.byteAt_setByte_same addr b,
      setByte_sameMemoryBut s addr b, s.setByte_regs addr b, s.setByte_cfg addr b⟩

end Sys2Proof.Machine
end

section
/-! Encoding (spec/30_encoding.md): an instruction's bytes split into its opcode byte and its operand bytes, and
the decoder and the encoder each said once over that split. -/

namespace Sys2Proof

/-! ### The parts of an instruction's bytes -/

/-- k of R66 for a declared instruction. -/
def Instr.opcodeIndex : Instr → Option Nat
  | .movLitReg _ _   => some 0
  | .movRegReg _ _   => some 1
  | .movRegMem _ _   => some 2
  | .movMemReg _ _   => some 3
  | .addRegReg _ _   => some 4
  | .jmpNotEq _ _    => some 5
  | .pshLit _        => some 6
  | .pshReg _        => some 7
  | .pop _           => some 8
  | .unrecognised _  => none

/-- Byte 0 of an instruction (R63). -/
def Instr.opcode (base : Nat) : Instr → Byte
  | .unrecognised op => op
  | i                => opcodeByte base (i.opcodeIndex.getD 0)

/-- The bytes of an instruction after byte 0, in canonical form (R61, R62, R63). -/
def Instr.operandBytes : Instr → List Byte
  | .movLitReg lit r   => wordBytes lit ++ [r.toByte]
  | .movRegReg src dst => [src.toByte, dst.toByte]
  | .movRegMem r a     => r.toByte :: wordBytes a
  | .movMemReg a r     => wordBytes a ++ [r.toByte]
  | .addRegReg ra rb   => [ra.toByte, rb.toByte]
  | .jmpNotEq v a      => wordBytes v ++ wordBytes a
  | .pshLit lit        => wordBytes lit
  | .pshReg r          => [r.toByte]
  | .pop r             => [r.toByte]
  | .unrecognised _    => []

theorem encode_eq (base : Nat) (i : Instr) : encode base i = i.opcode base :: i.operandBytes := by
  cases i <;> rfl

theorem Instr.opcodeIndex_le {i : Instr} {k : Nat} (h : i.opcodeIndex = some k) : k ≤ 8 := by
  cases i <;> simp only [opcodeIndex, reduceCtorEq, Option.some.injEq] at h <;> omega

theorem Instr.opcode_of_index {i : Instr} {k : Nat} (base : Nat) (h : i.opcodeIndex = some k) :
    i.opcode base = opcodeByte base k := by
  cases i <;> simp only [opcodeIndex, reduceCtorEq, Option.some.injEq] at h <;> subst h <;> rfl

/-- With a legal OPCODE_BASE the opcode byte of a well-formed instruction has the instruction's own index. -/
theorem opcodeOffset_opcode {base : Nat} {i : Instr} (hb : base ≤ 247) (hwf : i.wf base = true) :
    opcodeOffset base (i.opcode base) = i.opcodeIndex := by
  cases hk : i.opcodeIndex with
  | some k =>
    rw [Instr.opcode_of_index base hk, opcodeOffset_opcodeByte hb (Instr.opcodeIndex_le hk)]
  | none =>
    cases i <;> simp only [Instr.opcodeIndex, reduceCtorEq] at hk
    case unrecognised op =>
      have hout : ¬ declaredOpcode base op := of_decide_eq_true hwf
      exact opcodeOffset_of_undeclared (op := op) (by omega)

/-! ### The decoder on a whole instruction's bytes -/

theorem decode_cons_of_le {base : Nat} {op : Byte} {bs : List Byte}
    (h : sizeOfOperands (layout base op) ≤ bs.length) : decode base (op :: bs) =
      .ok (decodeOperands base op bs, bs.drop (sizeOfOperands (layout base op))) := if_pos h

theorem decode_cons_of_lt {base : Nat} {op : Byte} {bs : List Byte}
    (h : bs.length < sizeOfOperands (layout base op)) : decode base (op :: bs) =
      .error (.truncated (instrLength base op) (bs.length + 1)) := if_neg (Nat.not_le_of_lt h)

theorem decode_cons_eq_ok {base : Nat} {op : Byte} {bs rest : List Byte} {i : Instr}
    (h : decode base (op :: bs) = .ok (i, rest)) : sizeOfOperands (layout base op) ≤ bs.length ∧
      decodeOperands base op bs = i ∧ bs.drop (sizeOfOperands (layout base op)) = rest := by
  by_cases hle : sizeOfOperands (layout base op) ≤ bs.length
  · rw [decode_cons_of_le hle] at h
    obtain ⟨hi, hrest⟩ := Prod.mk.inj (Except.ok.inj h)
    exact ⟨hle, hi, hrest⟩
  · rw [decode_cons_of_lt (Nat.lt_of_not_le hle)] at h
    cases h

/-- Bytes after the operands are left over and not looked at. -/
theorem decode_append {base : Nat} {op : Byte} {args : List Byte} (rest : List Byte)
    (h : args.length = sizeOfOperands (layout base op)) :
    decode base (op :: (args ++ rest)) = .ok (decodeOperands base op args, rest) := by
  rw [decode_cons_of_le (by simp [h]), ← h, List.drop_left]
  congr 2
  exact Machine.decodeOperands_congr fun j hj => List.getD_append _ _ _ _ (h ▸ hj)

theorem length_operandBytes {base : Nat} {op : Byte} {i : Instr}
    (h : opcodeOffset base op = i.opcodeIndex) :
    i.operandBytes.length = sizeOfOperands (layout base op) := by
  unfold layout
  rw [h]
  cases i <;> rfl

/-- Each operand is read back from where the encoder puts it (R61, R62). -/
theorem decodeOperands_operandBytes {base : Nat} {i : Instr}
    (h : opcodeOffset base (i.opcode base) = i.opcodeIndex) :
    decodeOperands base (i.opcode base) i.operandBytes = i := by
  unfold decodeOperands
  rw [h]
  cases i <;> simp [Instr.opcodeIndex, Instr.operandBytes, Instr.opcode, wordBytes]

theorem decode_encode {base : Nat} {i : Instr} (rest : List Byte)
    (h : opcodeOffset base (i.opcode base) = i.opcodeIndex) :
    decode base (encode base i ++ rest) = .ok (i, rest) := by
  rw [encode_eq, List.cons_append, decode_append rest (length_operandBytes h),
    decodeOperands_operandBytes h]

/-- Settles O1: the opcode byte of a well-formed instruction has its own index, so each operand is read back. -/
theorem decodeInvertsEncode : Obligations.DecodeInvertsEncode :=
  fun _ _ rest hb hwf => decode_encode rest (opcodeOffset_opcode hb hwf)

/-! ### What the decoder answers -/

theorem opcodeIndex_decodeOperands (base : Nat) (op : Byte) (bs : List Byte) :
    (decodeOperands base op bs).opcodeIndex = opcodeOffset base op := by
  rcases opcodeOffset_cases base op with ⟨k, hk, -, e⟩ | ⟨-, e⟩
  · interval_cases k <;> simp only [decodeOperands, e, Instr.opcodeIndex]
  · simp only [decodeOperands, e, Instr.opcodeIndex]

theorem opcode_decodeOperands (base : Nat) (op : Byte) (bs : List Byte) :
    (decodeOperands base op bs).opcode base = op := by
  have hidx := opcodeIndex_decodeOperands base op bs
  rcases opcodeOffset_cases base op with ⟨k, hk, hop, e⟩ | ⟨-, e⟩
  · rw [Instr.opcode_of_index base (hidx.trans e), opcodeByte, ← hop, BitVec.ofNat_toNat,
      BitVec.setWidth_eq]
  · simp only [decodeOperands, e, Instr.opcode]

theorem wf_decodeOperands (base : Nat) (op : Byte) (bs : List Byte) :
    (decodeOperands base op bs).wf base = true := by
  rcases opcodeOffset_cases base op with ⟨k, hk, -, e⟩ | ⟨hout, e⟩
  · interval_cases k <;> simp only [decodeOperands, e, Instr.wf]
  · simp only [decodeOperands, e, Instr.wf, decide_eq_true_eq]
    omega

/-- The canonical bytes of what was decoded have the length that byte 0 gives (R64). -/
theorem length_encode_decodeOperands (base : Nat) (op : Byte) (bs : List Byte) :
    (encode base (decodeOperands base op bs)).length = instrLength base op := by
  rw [encode_eq, List.length_cons,
    length_operandBytes (opcodeIndex_decodeOperands base op bs).symm, instrLength, Nat.add_comm]

/-- Settles O4: the decoded instruction has the opcode byte and the index that it was decoded from. -/
theorem decodedInstructionReencodes : Obligations.DecodedInstructionReencodes := by
  intro base op bs rest i h
  obtain ⟨hle, rfl, rfl⟩ := decode_cons_eq_ok h
  refine ⟨wf_decodeOperands base op bs, ?length, ?head, ?again⟩
  case length =>
    rw [length_encode_decodeOperands, instrLength, List.length_drop]
    omega
  case head => rw [encode_eq, opcode_decodeOperands, List.head?_cons]
  case again =>
    have hoff : opcodeOffset base ((decodeOperands base op bs).opcode base) =
        (decodeOperands base op bs).opcodeIndex := by
      rw [opcode_decodeOperands, opcodeIndex_decodeOperands]
    simpa using decode_encode [] hoff

/-! ### Formats -/

/-- R64's table is the lengths of the layouts. -/
theorem instrLength_eq_table (base : Nat) (op : Byte) : instrLength base op =
    if base ≤ op.toNat ∧ op.toNat ≤ base + 8
      then [4, 3, 4, 4, 3, 5, 3, 2, 2].getD (op.toNat - base) 0 else 1 := by
  unfold instrLength layout
  rcases opcodeOffset_cases base op with ⟨k, hk, hop, e⟩ | ⟨hout, e⟩
  · rw [if_pos (by omega), e, hop, Nat.add_sub_cancel_left]
    interval_cases k <;> rfl
  · rw [if_neg (by omega), e]
    rfl

/-- Settles O3: the length is the opcode byte and its layout's operands, whatever follows. -/
theorem lengthIsKnownFromByteZero : Obligations.LengthIsKnownFromByteZero := by
  intro base op bs len hlen
  obtain rfl : len = 1 + sizeOfOperands (layout base op) :=
    hlen.trans (instrLength_eq_table base op).symm
  constructor
  · intro hle
    rw [decode_cons_of_le (by omega), Nat.add_comm 1, List.drop_succ_cons]
    exact ⟨_, rfl⟩
  · intro hlt
    exact decode_cons_of_lt (by omega)

/-- Settles O2: with the opcode's offset known, each clause is the decoder's one arm for it; `wordOfBytes_eq_ofNat`
and `Reg.eq_ofByte` turn the arm's operands into the spec's arithmetic. -/
theorem decodeReadsEveryByteOfItsFormat : Obligations.DecodeReadsEveryByteOfItsFormat := by
  intro base op b1 b2 b3 b4 rest x1 x2 x3 h1 h2 h3
  obtain rfl := Reg.eq_ofByte h1
  obtain rfl := Reg.eq_ofByte h2
  obtain rfl := Reg.eq_ofByte h3
  simp only [← wordOfBytes_eq_ofNat]
  refine ⟨?_, ?_, ?_, ?_, ?_, ?_, ?_, ?_, ?_, fun hop => ?undeclared⟩
  case undeclared =>
    have e := opcodeOffset_of_undeclared hop
    simp [decode, decodeOperands, layout, e, sizeOfOperands]
  all_goals
    intro hop
    have e := opcodeOffset_of_eq hop (by decide)
    simp [decode, decodeOperands, layout, e, sizeOfOperands, OperandKind.size]

/-- Settles O5, by running the decoder on each word. -/
theorem decodeOfWrittenOutWords : Obligations.DecodeOfWrittenOutWords := by
  unfold Obligations.DecodeOfWrittenOutWords
  decide

end Sys2Proof
end

section
/-! The state (spec/10_state.md, spec/20_memory.md): register writes and the 24-byte view, reads after writes,
canonical memory, and what RESET constructs. -/

namespace Sys2Proof.Machine

variable {s t : State}

/-! ### Registers -/

theorem sameRegsBut_setReg (r : Reg) (v : Word) : SameRegsBut [r] s (s.setReg r v) := fun _ hq =>
  State.reg_setReg_ne _ _ _ _ (List.mem_singleton.not.mp hq)

theorem sameMemory_setReg (r : Reg) (v : Word) : SameMemory s (s.setReg r v) := fun _ => rfl

/-- Settles O8, from the read-after-write law of the register file. -/
theorem registerWriteChangesThatRegisterOnly : Obligations.RegisterWriteChangesThatRegisterOnly :=
  fun s r v => ⟨State.reg_setReg_same s r v, sameRegsBut_setReg r v, sameMemory_setReg r v, rfl⟩

/-- Register q is the bytes 2q and 2q + 1 of the backing array, the high byte first (R22). -/
theorem Regs.backing_getD (g : Regs) (q : Reg) :
    g.backing.getD (q.number * 2) 0 = highByte (g.get q) ∧
      g.backing.getD (q.number * 2 + 1) 0 = lowByte (g.get q) := by
  cases q <;> exact ⟨rfl, rfl⟩

/-- Settles O9: the word at an offset is a register's two bytes put together again, and a write changes the word of
its own register. -/
theorem registerByteSelectsItsStorageOffset : Obligations.RegisterByteSelectsItsStorageOffset := by
  intro s b r v
  refine ⟨rfl, ?offset, ?word⟩
  case offset => rw [storageOffset, Reg.number_ofByte, Nat.mul_comm]
  case word =>
    have hname : Reg.ofByte b = r ↔ r.number = b.toNat % 12 :=
      ⟨fun h => h ▸ Reg.number_ofByte b, Reg.eq_ofByte⟩
    obtain ⟨hhigh, hlow⟩ := (s.setReg r v).regs.backing_getD (Reg.ofByte b)
    rw [← Reg.number_ofByte, hhigh, hlow, ← wordOfBytes_eq_ofNat, wordOfBytes_high_low,
      Reg.number_ofByte, ← State.reg, State.reg_setReg]
    exact if_congr hname rfl rfl

/-! ### Reads after writes -/

theorem write16_eq_ok {a : Nat} {v : Word} (h : write16 s a v = .ok t) :
    s.fits a 2 ∧ t = s.setWord a v := by
  by_cases hfits : s.fits a 2
  · rw [write16_of_fits hfits] at h
    exact ⟨hfits, (Except.ok.inj h).symm⟩
  · rw [write16_of_not_fits hfits] at h
    cases h

/-- Settles O11: a completed 16-bit write answers `setWord`, whose two bytes a read of either width finds. -/
theorem memReadGivesTheBytesLastWritten : Obligations.MemReadGivesTheBytesLastWritten := by
  intro s t k addr v
  refine ⟨read8_of_fits, read8_of_not_fits, read16_of_fits, read16_of_not_fits, fun hwrite => ?_⟩
  obtain ⟨hfits, rfl⟩ := write16_eq_ok hwrite
  have hfits' : (s.setWord addr v).fits addr 2 := hfits
  refine ⟨?word, ⟨_, read8_of_fits (by omega), s.toNat_byteAt_setWord_same addr v⟩,
    ⟨_, read8_of_fits (by omega), s.toNat_byteAt_setWord_succ addr v⟩⟩
  rw [read16_of_fits hfits', State.wordAt_setWord]

/-! ### Canonical memory -/

theorem Memory.byteAt_of_forall_ne {m : Memory} {a : Nat} (h : ∀ c ∈ m, c.1 ≠ a) :
    m.byteAt a = unlistedByte := by
  induction m with
  | nil => rfl
  | cons c m ih =>
    rw [Memory.byteAt_cons, if_neg (h c (List.mem_cons_self ..)),
      ih fun d hd => h d (List.mem_cons_of_mem _ hd)]

theorem Memory.byteAt_cons_self (c : Host.Cell) (m : Memory) : Memory.byteAt (c :: m) c.1 = c.2 :=
  if_pos rfl

/-- Below its first cell a canonical memory lists nothing. -/
theorem Memory.byteAt_of_lt_head {c : Host.Cell} {m : Memory} {a : Nat} (h : Memory.wf (c :: m) = true)
    (ha : a < c.1) : Memory.byteAt (c :: m) a = unlistedByte := by
  obtain ⟨-, -, hrise⟩ := Memory.wf_cons.mp h
  refine Memory.byteAt_of_forall_ne fun d hd => ?_
  rcases List.mem_cons.mp hd with rfl | hd
  · omega
  · have := hrise d hd
    omega

/-- Of two canonical memories that read alike, neither begins below the other. -/
theorem Memory.head_le_of_reads_alike {c d : Host.Cell} {m n : Memory} (hm : Memory.wf (c :: m) = true)
    (hn : Memory.wf (d :: n) = true) (heq : ∀ a, Memory.byteAt (c :: m) a = Memory.byteAt (d :: n) a) :
    d.1 ≤ c.1 := by
  by_contra hlt
  obtain ⟨hlisted, -, -⟩ := Memory.wf_cons.mp hm
  exact hlisted (by rw [← Memory.byteAt_cons_self c m, heq, Memory.byteAt_of_lt_head hn (by omega)])

theorem Memory.eq_nil_of_reads_unlisted {m : Memory} (hm : m.wf = true)
    (heq : ∀ a, m.byteAt a = unlistedByte) : m = [] := by
  cases m with
  | nil => rfl
  | cons c m =>
    obtain ⟨hlisted, -, -⟩ := Memory.wf_cons.mp hm
    exact absurd (Memory.byteAt_cons_self c m ▸ heq c.1) hlisted

theorem Memory.eq_of_reads_alike {m n : Memory} (hm : m.wf = true) (hn : n.wf = true)
    (heq : ∀ a, m.byteAt a = n.byteAt a) : m = n := by
  induction m generalizing n with
  | nil => exact (Memory.eq_nil_of_reads_unlisted hn fun a => (heq a).symm).symm
  | cons c m ih =>
    cases n with
    | nil => exact Memory.eq_nil_of_reads_unlisted hm heq
    | cons d n =>
      obtain ⟨-, hm', hriseM⟩ := Memory.wf_cons.mp hm
      obtain ⟨-, hn', hriseN⟩ := Memory.wf_cons.mp hn
      have haddr : c.1 = d.1 := Nat.le_antisymm
        (Memory.head_le_of_reads_alike hn hm fun a => (heq a).symm)
        (Memory.head_le_of_reads_alike hm hn heq)
      have hbyte : c.2 = d.2 := by
        rw [← Memory.byteAt_cons_self c m, heq, haddr, Memory.byteAt_cons_self]
      have htail : m = n := ih hm' hn' fun a => by
        by_cases ha : c.1 = a
        · rw [Memory.byteAt_of_forall_ne fun e he => (ha ▸ hriseM e he).ne',
            Memory.byteAt_of_forall_ne fun e he => (ha ▸ haddr ▸ hriseN e he).ne']
        · simpa only [Memory.byteAt_cons, if_neg ha, if_neg (haddr ▸ ha)] using heq a
      rw [Prod.ext haddr hbyte, htail]

/-- Settles O12, by induction on the two lists: the heads are equal, and with the heads gone the tails still read
alike. -/
theorem canonicalMemoriesReadingAlikeAreEqual : Obligations.CanonicalMemoriesReadingAlikeAreEqual :=
  fun _ _ => Memory.eq_of_reads_alike

/-! ### RESET -/

theorem State.resetWith_wf {c : Config} (h : c.wf) : (State.resetWith c).wf := ⟨h, rfl, rfl⟩

theorem Session.construct_of_not_wf {c : Config} (h : ¬ c.wf) :
    Session.construct c = .error .badConfiguration := if_neg h

/-- Settles O7: RESET answers `State.resetWith` or refuses, and an empty memory is canonical. -/
theorem resetIsWellFormed : Obligations.ResetIsWellFormed := by
  have hdefault : Config.default.wf := by decide
  exact ⟨State.resetWith_wf hdefault, Session.construct_of_wf hdefault, fun c =>
    ⟨fun h => ⟨_, Session.construct_of_wf h, State.resetWith_wf h, rfl⟩,
      Session.construct_of_not_wf⟩⟩

end Sys2Proof.Machine
end

section
/-! What each instruction's effect does (spec/41_data_movement.md to spec/44_stack.md): the frames of register and
memory updates, and from them effect, frame and fault of every instruction. -/

namespace Sys2Proof.Machine

variable {s t : State} {rs : List Reg}

/-! ### Frames of updates -/

theorem SameRegsBut.refl (rs : List Reg) (s : State) : SameRegsBut rs s s := fun _ _ => rfl

theorem SameRegsBut.mono {rs' : List Reg} (h : SameRegsBut rs s t) (hsub : rs ⊆ rs') :
    SameRegsBut rs' s t := fun q hq => h q fun hmem => hq (hsub hmem)

/-- A write of one more register adds it to the frame's exceptions. -/
theorem SameRegsBut.setReg (h : SameRegsBut rs s t) {r : Reg} (v : Word) (hr : r ∈ rs) :
    SameRegsBut rs s (t.setReg r v) := fun q hq => by
  rw [State.reg_setReg_ne t r q v fun e => hq (e ▸ hr), h q hq]

theorem SameMemory.refl (s : State) : SameMemory s s := fun _ => rfl

/-! ### Data movement -/

/-- Settles O27. -/
theorem movLitRegCompletes : Obligations.MovLitRegCompletes := fun _ lit r =>
  ⟨_, exec_movLitReg lit r, State.reg_setReg_same .., sameRegsBut_setReg _ _, sameMemory_setReg _ _, rfl⟩

/-- Settles O28. -/
theorem movRegRegCompletes : Obligations.MovRegRegCompletes := fun _ src dst =>
  ⟨_, exec_movRegReg src dst, State.reg_setReg_same .., sameRegsBut_setReg _ _, sameMemory_setReg _ _, rfl⟩

/-- Settles O29: on each side of the bounds check `exec_movRegMem` gives the outcome. -/
theorem movRegMemCompletes : Obligations.MovRegMemCompletes := fun s r a =>
  ⟨fun hfits => ⟨_, (exec_movRegMem r a).trans (if_pos hfits), State.wordAt_setWord,
      setWord_sameMemoryBut, SameRegsBut.refl [] s, rfl⟩,
    fun hfits => (exec_movRegMem r a).trans (if_neg hfits)⟩

/-- Settles O30. -/
theorem movMemRegCompletes : Obligations.MovMemRegCompletes := fun _ a r =>
  ⟨fun hfits => ⟨_, (exec_movMemReg a r).trans (if_pos hfits), State.reg_setReg_same ..,
      sameRegsBut_setReg _ _, sameMemory_setReg _ _, rfl⟩,
    fun hfits => (exec_movMemReg a r).trans (if_neg hfits)⟩

/-! ### Arithmetic and control transfer -/

/-- Settles O31: the sum commutes, so the operands' order does not matter. -/
theorem addRegRegCompletes : Obligations.AddRegRegCompletes := by
  intro s ra rb
  refine ⟨_, exec_addRegReg ra rb, ?sum, sameRegsBut_setReg _ _, sameMemory_setReg _ _, rfl, ?comm⟩
  case sum => rw [State.reg_setReg_same, BitVec.toNat_add]
  case comm => rw [exec_addRegReg, BitVec.add_comm]

/-- Settles O32, on each side of the jump's condition. -/
theorem jmpNotEqCompletes : Obligations.JmpNotEqCompletes := by
  intro s v a
  refine ⟨_, exec_jmpNotEq v a, ?_⟩
  by_cases hv : v = s.reg .acc
  · rw [if_pos hv]
    exact ⟨fun hne => absurd hv hne, fun _ => rfl, SameRegsBut.refl _ s, SameMemory.refl s, rfl⟩
  · rw [if_neg hv]
    exact ⟨fun _ => State.reg_setReg_same .., fun heq => absurd heq hv, sameRegsBut_setReg _ _,
      sameMemory_setReg _ _, rfl⟩

/-- Settles O36. -/
theorem unrecognisedOpcodeCompletes : Obligations.UnrecognisedOpcodeCompletes := fun s op =>
  ⟨s, exec_unrecognised op, SameRegsBut.refl _ s, SameMemory.refl s, rfl⟩

/-! ### The stack -/

/-- The state after a push of `v`: the word at the old SP, and SP 2 lower (R84). -/
def State.pushed (s : State) (v : Word) : State :=
  (s.setWord (s.reg .sp).toNat v).setReg .sp (s.reg .sp - 2)

theorem State.pushed_reg_sp (s : State) (v : Word) : (s.pushed v).reg .sp = s.reg .sp - 2 :=
  State.reg_setReg_same ..

theorem State.pushed_wordAt (s : State) (v : Word) : (s.pushed v).wordAt (s.reg .sp).toNat = v := by
  rw [State.pushed, State.wordAt_setReg, State.wordAt_setWord]

theorem pushed_sameMemoryBut (s : State) (v : Word) :
    SameMemoryBut (s.reg .sp).toNat 2 s (s.pushed v) := setWord_sameMemoryBut

theorem pushed_sameRegsBut (s : State) (v : Word) : SameRegsBut [.sp] s (s.pushed v) :=
  SameRegsBut.setReg (SameRegsBut.refl [.sp] s) (t := s.setWord _ v) _ (List.mem_singleton_self _)

/-- Settles O33. -/
theorem pshLitCompletes : Obligations.PshLitCompletes := fun s lit =>
  ⟨fun hfits => ⟨s.pushed lit, (exec_pshLit lit).trans (if_pos hfits), s.pushed_wordAt lit,
      pushed_sameMemoryBut s lit, s.pushed_reg_sp lit, pushed_sameRegsBut s lit, rfl⟩,
    fun hfits => (exec_pshLit lit).trans (if_neg hfits)⟩

/-- Settles O34. -/
theorem pshRegCompletes : Obligations.PshRegCompletes := fun s r =>
  ⟨fun hfits => ⟨s.pushed (s.reg r), (exec_pshReg r).trans (if_pos hfits), s.pushed_wordAt _,
      pushed_sameMemoryBut s _, s.pushed_reg_sp _, pushed_sameRegsBut s _, rfl⟩,
    fun hfits => (exec_pshReg r).trans (if_neg hfits)⟩

/-- Settles O35: SP is raised first and the word written after it, so it is the word that a destination SP holds. -/
theorem popCompletes : Obligations.PopCompletes := by
  intro s r
  refine ⟨fun hfits => ⟨_, (exec_pop r).trans (if_pos hfits), State.reg_setReg_same .., fun hr => ?sp,
    ?frame, fun _ => rfl, rfl⟩, fun hfits => (exec_pop r).trans (if_neg hfits)⟩
  case sp => rw [State.reg_setReg_ne _ _ _ _ (Ne.symm hr), State.reg_setReg_same]
  case frame =>
    exact ((SameRegsBut.refl [.sp, r] s).setReg _ (by simp)).setReg _ (by simp)

theorem ite_next_iff {p : Prop} [Decidable p] {u : State} {f : Fault} :
    (∃ t, (if p then .next u else .fault f : Result) = .next t) ↔ p := by
  by_cases hp : p <;> simp [hp]

/-- Settles O49: the bounds check is the only branch of a push and of a pop. -/
theorem stackHasNoLimitButMemoryBounds : Obligations.StackHasNoLimitButMemoryBounds := by
  intro s lit r
  rw [exec_pshLit, exec_pshReg, exec_pop]
  exact ⟨ite_next_iff, ite_next_iff, ite_next_iff⟩

end Sys2Proof.Machine
end

section
/-! A step as a whole (spec/40_step_cycle.md R80, R87; spec/60_exceptions.md R160, R167): its accesses are
checked in order, and when all are in range the effect of the decoded instruction happens with IP past the instruction. -/

namespace Sys2Proof.Machine

variable {s t : State}

/-! ### Accesses checked in order -/

/-- Fault with the first access that is out of range, or go on. -/
def guardAccesses (s : State) (xs : List Access) (r : Result) : Result :=
  match xs.find? (outOfRange s) with
  | some x => .fault (.addressError x.addr x.width x.kind)
  | none   => r

/-- Every access of the list is in range. -/
def AllFit (s : State) (xs : List Access) : Prop := ∀ x ∈ xs, s.fits x.addr x.width

theorem outOfRange_eq_true {x : Access} : outOfRange s x = true ↔ ¬ s.fits x.addr x.width := by
  rw [outOfRange, decide_eq_true_iff, Nat.not_le]

theorem find?_outOfRange_eq_none {xs : List Access} : xs.find? (outOfRange s) = none ↔ AllFit s xs := by
  simp only [List.find?_eq_none, outOfRange_eq_true, not_not, AllFit]

theorem guardAccesses_of_some {xs : List Access} {r : Result} {x : Access}
    (h : xs.find? (outOfRange s) = some x) :
    guardAccesses s xs r = .fault (.addressError x.addr x.width x.kind) := by
  rw [guardAccesses, h]

theorem guardAccesses_of_allFit {xs : List Access} {r : Result} (h : AllFit s xs) :
    guardAccesses s xs r = r := by
  rw [guardAccesses, find?_outOfRange_eq_none.mpr h]

/-- Both ways a guarded result can come about. -/
theorem guardAccesses_cases (s : State) (xs : List Access) (r : Result) :
    (AllFit s xs ∧ guardAccesses s xs r = r) ∨
    ∃ x ∈ xs, ¬ s.fits x.addr x.width ∧
      guardAccesses s xs r = .fault (.addressError x.addr x.width x.kind) := by
  cases h : xs.find? (outOfRange s) with
  | none =>
    have hfit := find?_outOfRange_eq_none.mp h
    exact .inl ⟨hfit, guardAccesses_of_allFit hfit⟩
  | some x => exact .inr ⟨x, List.mem_of_find?_eq_some h,
      outOfRange_eq_true.mp (List.find?_some h), guardAccesses_of_some h⟩

theorem guardAccesses_eq_next {xs : List Access} {u : State}
    (h : guardAccesses s xs (.next u) = .next t) : AllFit s xs ∧ u = t := by
  rcases guardAccesses_cases s xs (.next u) with ⟨hfit, e⟩ | ⟨x, -, -, e⟩
  · exact ⟨hfit, Host.Outcome.next.inj (e.symm.trans h)⟩
  · cases e.symm.trans h

theorem guardAccesses_eq_fault {xs : List Access} {u : State} {f : Fault}
    (h : guardAccesses s xs (.next u) = .fault f) :
    ∃ x ∈ xs, ¬ s.fits x.addr x.width ∧ f = .addressError x.addr x.width x.kind := by
  rcases guardAccesses_cases s xs (.next u) with ⟨-, e⟩ | ⟨x, hx, hout, e⟩
  · cases e.symm.trans h
  · exact ⟨x, hx, hout, Host.Outcome.fault.inj (h.symm.trans e)⟩

theorem guardAccesses_ne_refused (s : State) (xs : List Access) (u : State) (r : Refusal) :
    guardAccesses s xs (.next u) ≠ .refused r := by
  intro h
  rcases guardAccesses_cases s xs (.next u) with ⟨-, e⟩ | ⟨x, -, -, e⟩ <;> cases e.symm.trans h

theorem guardAccesses_append (xs ys : List Access) (r : Result) :
    guardAccesses s (xs ++ ys) r = guardAccesses s xs (guardAccesses s ys r) := by
  unfold guardAccesses
  rw [List.find?_append]
  cases xs.find? (outOfRange s) <;> rfl

theorem guardAccesses_singleton (x : Access) (r : Result) : guardAccesses s [x] r =
    if s.fits x.addr x.width then r else .fault (.addressError x.addr x.width x.kind) := by
  split
  case isTrue h => exact guardAccesses_of_allFit fun y hy => List.mem_singleton.mp hy ▸ h
  case isFalse h =>
    exact guardAccesses_of_some (by rw [List.find?_cons_of_pos (outOfRange_eq_true.mpr h)])

/-- Only the configuration decides what is in range. -/
theorem guardAccesses_congr (hcfg : t.cfg = s.cfg) (xs : List Access) (r : Result) :
    guardAccesses t xs r = guardAccesses s xs r := by
  have : outOfRange t = outOfRange s := by funext x; rw [outOfRange, outOfRange, hcfg]
  rw [guardAccesses, guardAccesses, this]

/-! ### IP past the instruction -/

/-- The state with IP `n` bytes on, modulo 65536 (R87; log entry 8). -/
def State.advanced (s : State) (n : Nat) : State := s.setReg .ip (s.reg .ip + BitVec.ofNat 16 n)

/-- A source register reads as `sourceValue` says (R123; log entry 10). -/
theorem State.advanced_reg (n : Nat) (r : Reg) : (s.advanced n).reg r = s.sourceValue n r :=
  State.reg_setReg ..

theorem State.advanced_reg_ip (n : Nat) : (s.advanced n).reg .ip = s.reg .ip + BitVec.ofNat 16 n :=
  State.reg_setReg_same ..

theorem State.advanced_reg_of_ne {r : Reg} (n : Nat) (h : r ≠ .ip) : (s.advanced n).reg r = s.reg r :=
  State.reg_setReg_ne _ _ _ _ h

theorem State.fetched_eq_advanced (s : State) : s.fetched =
    s.advanced (instrLength s.cfg.opcodeBase (s.byteAt (s.ipPlus 0))) := rfl

/-- A frame from the advanced state on is a frame from the state before, with IP excepted. -/
theorem SameRegsBut.of_advanced {rs : List Reg} {n : Nat} (h : SameRegsBut rs (s.advanced n) t) :
    SameRegsBut (.ip :: rs) s t := fun q hq => by
  obtain ⟨hip, hrs⟩ := List.ne_and_not_mem_of_not_mem_cons hq
  rw [h q hrs, State.advanced_reg_of_ne n hip]

theorem SameRegsBut.reg_ip_of_advanced {rs : List Reg} {n : Nat} (h : SameRegsBut rs (s.advanced n) t)
    (hip : Reg.ip ∉ rs) : t.reg .ip = s.reg .ip + BitVec.ofNat 16 n := by
  rw [h .ip hip, State.advanced_reg_ip]

/-! ### The fetch -/

/-- The instruction that the fetched bytes decode to. -/
def State.decoded (s : State) : Instr :=
  decodeOperands s.cfg.opcodeBase (s.byteAt (s.ipPlus 0))
    (operandsBytesAt s (s.reg .ip + 1) (layout s.cfg.opcodeBase (s.byteAt (s.ipPlus 0))))

theorem mem_fetchAccesses {p : Word} {ks : List OperandKind} {x : Access} (h : x ∈ fetchAccesses p ks) :
    x.addr < 65536 ∧ x.width ≤ 2 ∧ x.kind = .fetch := by
  induction ks generalizing p with
  | nil => cases h
  | cons k ks ih =>
    rcases List.mem_cons.mp h with rfl | h
    · exact ⟨p.isLt, k.size_pos.2, rfl⟩
    · exact ih h

theorem mem_fetches {x : Access} (h : x ∈ s.fetches) : x.addr < 65536 ∧ x.width ≤ 2 ∧ x.kind = .fetch := by
  rcases List.mem_cons.mp h with rfl | h
  · exact ⟨BitVec.isLt _, Nat.le_succ 1, rfl⟩
  · exact mem_fetchAccesses h

theorem kind_of_mem_fetches {x : Access} (h : x ∈ s.fetches) : x.kind = .fetch :=
  have ⟨_, _, hkind⟩ := mem_fetches h
  hkind

/-- Everything a step can do, at every memory size. -/
theorem step_eq_guard_exec (s : State) : step s = guardAccesses s s.fetches (exec s.decoded s.fetched) := by
  rw [step, fetchInstr_eq, guardAccesses]
  cases h : s.fetches.find? (outOfRange s) with
  | none => rfl
  | some x =>
    simp only [orFault_error, kind_of_mem_fetches (List.mem_of_find?_eq_some h)]

theorem step_of_allFit (h : AllFit s s.fetches) : step s = exec s.decoded s.fetched := by
  rw [step_eq_guard_exec, guardAccesses_of_allFit h]

theorem decoded_eq_nextInstr (hw : s.cfg.wf) (h : AllFit s s.fetches) : s.decoded = s.nextInstr := by
  obtain ⟨-, -, hmax, -⟩ := hw
  exact decodeOperands_at hmax (find?_outOfRange_eq_none.mpr h)

/-- Settles O13: the bytes at IP are those that `nextInstr` decodes, and their number is the instruction's
length. -/
theorem stepRunsTheDecodedInstruction : Obligations.StepRunsTheDecodedInstruction := by
  intro s op bs i hw hdecode hbytes hop hargs
  obtain ⟨hle, rfl, hdrop⟩ := decode_cons_eq_ok hdecode
  have hlen : bs.length = sizeOfOperands (layout s.cfg.opcodeBase op) :=
    Nat.le_antisymm (List.drop_eq_nil_iff.mp hdrop) hle
  have hbyte0 : s.byteAt (s.ipPlus 0) = op := hbytes 0 (Nat.succ_pos _)
  subst hbyte0
  have hfit : AllFit s s.fetches := List.forall_mem_cons.mpr ⟨hop, hargs⟩
  have hnext : decodeOperands s.cfg.opcodeBase (s.byteAt (s.ipPlus 0)) bs = s.nextInstr :=
    decodeOperands_eq_nextInstr fun j hj => (hbytes (j + 1) (Nat.succ_lt_succ (hlen ▸ hj))).symm
  rw [step_of_allFit hfit, decoded_eq_nextInstr hw hfit, hnext, hlen, Nat.add_comm]
  rfl

end Sys2Proof.Machine
end

section
/-! Whole instructions from the bytes at IP (R88, R100 to R132): for each opcode, a step whose fetches are in range
is the effect of its instruction in the advanced state, so effect, frame and fault come from the effect's own
theorem. -/

namespace Sys2Proof.Machine

variable {s t : State}

/-! ### The bytes at IP -/

theorem allFit_operands_nil (j : Nat) : AllFit s (fetchAccesses (s.reg .ip + BitVec.ofNat 16 j) []) :=
  List.forall_mem_nil _

theorem allFit_operands_cons {j : Nat} {k : OperandKind} {ks : List OperandKind}
    (h : s.fits (s.ipPlus j) k.size)
    (hs : AllFit s (fetchAccesses (s.reg .ip + BitVec.ofNat 16 (j + k.size)) ks)) :
    AllFit s (fetchAccesses (s.reg .ip + BitVec.ofNat 16 j) (k :: ks)) := by
  rw [fetchAccesses, BitVec.add_assoc, ← BitVec.ofNat_add]
  exact List.forall_mem_cons.mpr ⟨h, hs⟩

theorem operandsBytesAt_reg8 (j : Nat) (ks : List OperandKind) :
    operandsBytesAt s (s.reg .ip + BitVec.ofNat 16 j) (.reg8 :: ks) =
      s.byteAt (s.ipPlus j) :: operandsBytesAt s (s.reg .ip + BitVec.ofNat 16 (j + 1)) ks := by
  rw [BitVec.ofNat_add, ← BitVec.add_assoc]
  rfl

theorem operandsBytesAt_word16 (j : Nat) (ks : List OperandKind) :
    operandsBytesAt s (s.reg .ip + BitVec.ofNat 16 j) (.word16 :: ks) =
      s.byteAt (s.ipPlus j) :: s.byteAt (s.ipPlus j + 1) ::
        operandsBytesAt s (s.reg .ip + BitVec.ofNat 16 (j + 2)) ks := by
  rw [BitVec.ofNat_add, ← BitVec.add_assoc]
  rfl

/-- A step whose opcode has the layout `ks`, whose fetches are in range and whose operand bytes decode to `i`. -/
theorem step_of_layout {ks : List OperandKind} {i : Instr} (hop : s.fits (s.ipPlus 0) 1)
    (hks : layout s.cfg.opcodeBase (s.byteAt (s.ipPlus 0)) = ks)
    (hargs : AllFit s (fetchAccesses (s.reg .ip + BitVec.ofNat 16 1) ks))
    (hi : decodeOperands s.cfg.opcodeBase (s.byteAt (s.ipPlus 0))
      (operandsBytesAt s (s.reg .ip + BitVec.ofNat 16 1) ks) = i) :
    step s = exec i (s.advanced (1 + sizeOfOperands ks)) := by
  subst hks hi
  exact step_of_allFit (List.forall_mem_cons.mpr ⟨hop, hargs⟩)

/-- The same for a declared opcode, whose layout and decoding follow from its offset. -/
theorem step_of_opcodeIs {k : Nat} {ks : List OperandKind} {i : Instr} (hop : s.opcodeIs k) (hk : k ≤ 8)
    (hargs : AllFit s (fetchAccesses (s.reg .ip + BitVec.ofNat 16 1) ks))
    (hi : opcodeOffset s.cfg.opcodeBase (s.byteAt (s.ipPlus 0)) = some k →
      layout s.cfg.opcodeBase (s.byteAt (s.ipPlus 0)) = ks ∧
      decodeOperands s.cfg.opcodeBase (s.byteAt (s.ipPlus 0))
        (operandsBytesAt s (s.reg .ip + BitVec.ofNat 16 1) ks) = i) :
    step s = exec i (s.advanced (1 + sizeOfOperands ks)) := by
  obtain ⟨hfits, hbyte⟩ := hop
  obtain ⟨hks, hi⟩ := hi (opcodeOffset_of_eq hbyte hk)
  exact step_of_layout hfits hks hargs hi

/-! ### One step equation for each opcode -/

theorem step_movLitReg {r : Reg} (hop : s.opcodeIs 0) (h1 : s.fits (s.ipPlus 1) 2)
    (h3 : s.fits (s.ipPlus 3) 1) (hr : s.operandIs 3 r) :
    step s = exec (.movLitReg (s.wordAt (s.ipPlus 1)) r) (s.advanced 4) :=
  step_of_opcodeIs (ks := [.word16, .reg8]) hop (by decide)
    (allFit_operands_cons h1 (allFit_operands_cons h3 (allFit_operands_nil _)))
    fun e => ⟨by simp only [layout, e],
      by simp [decodeOperands, e, operandsBytesAt_word16, operandsBytesAt_reg8, wordAt_eq, Reg.eq_ofByte hr]⟩

theorem step_movRegReg {src dst : Reg} (hop : s.opcodeIs 1) (h1 : s.fits (s.ipPlus 1) 1)
    (h2 : s.fits (s.ipPlus 2) 1) (hsrc : s.operandIs 1 src) (hdst : s.operandIs 2 dst) :
    step s = exec (.movRegReg src dst) (s.advanced 3) :=
  step_of_opcodeIs (ks := [.reg8, .reg8]) hop (by decide)
    (allFit_operands_cons h1 (allFit_operands_cons h2 (allFit_operands_nil _)))
    fun e => ⟨by simp only [layout, e],
      by simp [decodeOperands, e, operandsBytesAt_reg8, Reg.eq_ofByte hsrc, Reg.eq_ofByte hdst]⟩

theorem step_movRegMem {r : Reg} (hop : s.opcodeIs 2) (h1 : s.fits (s.ipPlus 1) 1)
    (h2 : s.fits (s.ipPlus 2) 2) (hr : s.operandIs 1 r) :
    step s = exec (.movRegMem r (s.wordAt (s.ipPlus 2))) (s.advanced 4) :=
  step_of_opcodeIs (ks := [.reg8, .word16]) hop (by decide)
    (allFit_operands_cons h1 (allFit_operands_cons h2 (allFit_operands_nil _)))
    fun e => ⟨by simp only [layout, e],
      by simp [decodeOperands, e, operandsBytesAt_word16, operandsBytesAt_reg8, wordAt_eq, Reg.eq_ofByte hr]⟩

theorem step_movMemReg {r : Reg} (hop : s.opcodeIs 3) (h1 : s.fits (s.ipPlus 1) 2)
    (h3 : s.fits (s.ipPlus 3) 1) (hr : s.operandIs 3 r) :
    step s = exec (.movMemReg (s.wordAt (s.ipPlus 1)) r) (s.advanced 4) :=
  step_of_opcodeIs (ks := [.word16, .reg8]) hop (by decide)
    (allFit_operands_cons h1 (allFit_operands_cons h3 (allFit_operands_nil _)))
    fun e => ⟨by simp only [layout, e],
      by simp [decodeOperands, e, operandsBytesAt_word16, operandsBytesAt_reg8, wordAt_eq, Reg.eq_ofByte hr]⟩

theorem step_addRegReg {ra rb : Reg} (hop : s.opcodeIs 4) (h1 : s.fits (s.ipPlus 1) 1)
    (h2 : s.fits (s.ipPlus 2) 1) (ha : s.operandIs 1 ra) (hb : s.operandIs 2 rb) :
    step s = exec (.addRegReg ra rb) (s.advanced 3) :=
  step_of_opcodeIs (ks := [.reg8, .reg8]) hop (by decide)
    (allFit_operands_cons h1 (allFit_operands_cons h2 (allFit_operands_nil _)))
    fun e => ⟨by simp only [layout, e],
      by simp [decodeOperands, e, operandsBytesAt_reg8, Reg.eq_ofByte ha, Reg.eq_ofByte hb]⟩

theorem step_jmpNotEq (hop : s.opcodeIs 5) (h1 : s.fits (s.ipPlus 1) 2) (h3 : s.fits (s.ipPlus 3) 2) :
    step s = exec (.jmpNotEq (s.wordAt (s.ipPlus 1)) (s.wordAt (s.ipPlus 3))) (s.advanced 5) :=
  step_of_opcodeIs (ks := [.word16, .word16]) hop (by decide)
    (allFit_operands_cons h1 (allFit_operands_cons h3 (allFit_operands_nil _)))
    fun e => ⟨by simp only [layout, e],
      by simp [decodeOperands, e, operandsBytesAt_word16, wordAt_eq]⟩

theorem step_pshLit (hop : s.opcodeIs 6) (h1 : s.fits (s.ipPlus 1) 2) :
    step s = exec (.pshLit (s.wordAt (s.ipPlus 1))) (s.advanced 3) :=
  step_of_opcodeIs (ks := [.word16]) hop (by decide)
    (allFit_operands_cons h1 (allFit_operands_nil _))
    fun e => ⟨by simp only [layout, e],
      by simp [decodeOperands, e, operandsBytesAt_word16, wordAt_eq]⟩

theorem step_pshReg {r : Reg} (hop : s.opcodeIs 7) (h1 : s.fits (s.ipPlus 1) 1) (hr : s.operandIs 1 r) :
    step s = exec (.pshReg r) (s.advanced 2) :=
  step_of_opcodeIs (ks := [.reg8]) hop (by decide)
    (allFit_operands_cons h1 (allFit_operands_nil _))
    fun e => ⟨by simp only [layout, e],
      by simp [decodeOperands, e, operandsBytesAt_reg8, Reg.eq_ofByte hr]⟩

theorem step_pop {r : Reg} (hop : s.opcodeIs 8) (h1 : s.fits (s.ipPlus 1) 1) (hr : s.operandIs 1 r) :
    step s = exec (.pop r) (s.advanced 2) :=
  step_of_opcodeIs (ks := [.reg8]) hop (by decide)
    (allFit_operands_cons h1 (allFit_operands_nil _))
    fun e => ⟨by simp only [layout, e],
      by simp [decodeOperands, e, operandsBytesAt_reg8, Reg.eq_ofByte hr]⟩

theorem step_unrecognised (hfits : s.fits (s.ipPlus 0) 1)
    (hop : (s.byteAt (s.ipPlus 0)).toNat < s.cfg.opcodeBase ∨
      s.cfg.opcodeBase + 8 < (s.byteAt (s.ipPlus 0)).toNat) :
    step s = exec (.unrecognised (s.byteAt (s.ipPlus 0))) (s.advanced 1) := by
  have e := opcodeOffset_of_undeclared hop
  exact step_of_layout (ks := []) hfits (by simp only [layout, e]) (allFit_operands_nil _)
    (by simp only [decodeOperands, e])

/-! ### Data movement, arithmetic and control transfer -/

/-- Settles O37. -/
theorem movLitRegFromItsBytes : Obligations.MovLitRegFromItsBytes := by
  intro s r hop h1 h3 hr
  obtain ⟨t, hexec, hreg, hregs, hmem, hcfg⟩ :=
    movLitRegCompletes (s.advanced 4) (s.wordAt (s.ipPlus 1)) r
  exact ⟨t, (step_movLitReg hop h1 h3 hr).trans hexec, hreg,
    fun hne => hregs.reg_ip_of_advanced (by simpa using hne.symm), hregs.of_advanced, hmem, hcfg⟩

/-- Settles O38. -/
theorem movRegRegFromItsBytes : Obligations.MovRegRegFromItsBytes := by
  intro s src dst hop h1 h2 hsrc hdst
  obtain ⟨t, hexec, hreg, hregs, hmem, hcfg⟩ := movRegRegCompletes (s.advanced 3) src dst
  exact ⟨t, (step_movRegReg hop h1 h2 hsrc hdst).trans hexec, hreg.trans (State.advanced_reg 3 src),
    fun hne => hregs.reg_ip_of_advanced (by simpa using hne.symm), hregs.of_advanced, hmem, hcfg⟩

/-- Settles O39. -/
theorem movRegMemFromItsBytes : Obligations.MovRegMemFromItsBytes := by
  intro s r hop h1 h2 hr
  have hstep := step_movRegMem hop h1 h2 hr
  obtain ⟨hcompletes, hfaults⟩ := movRegMemCompletes (s.advanced 4) r (s.wordAt (s.ipPlus 2))
  refine ⟨fun hfits => ?_, fun hfits => hstep.trans (hfaults hfits)⟩
  obtain ⟨t, hexec, hword, hmem, hregs, hcfg⟩ := hcompletes hfits
  exact ⟨t, hstep.trans hexec, hword.trans (State.advanced_reg 4 r), hmem,
    hregs.reg_ip_of_advanced List.not_mem_nil, hregs.of_advanced, hcfg⟩

/-- Settles O40. -/
theorem movMemRegFromItsBytes : Obligations.MovMemRegFromItsBytes := by
  intro s r hop h1 h3 hr
  have hstep := step_movMemReg hop h1 h3 hr
  obtain ⟨hcompletes, hfaults⟩ := movMemRegCompletes (s.advanced 4) (s.wordAt (s.ipPlus 1)) r
  refine ⟨fun hfits => ?_, fun hfits => hstep.trans (hfaults hfits)⟩
  obtain ⟨t, hexec, hreg, hregs, hmem, hcfg⟩ := hcompletes hfits
  exact ⟨t, hstep.trans hexec, hreg, fun hne => hregs.reg_ip_of_advanced (by simpa using hne.symm),
    hregs.of_advanced, hmem, hcfg⟩

/-- Settles O41. -/
theorem addRegRegFromItsBytes : Obligations.AddRegRegFromItsBytes := by
  intro s ra rb hop h1 h2 ha hb
  obtain ⟨t, hexec, hsum, hregs, hmem, hcfg, -⟩ := addRegRegCompletes (s.advanced 3) ra rb
  rw [State.advanced_reg, State.advanced_reg] at hsum
  exact ⟨t, (step_addRegReg hop h1 h2 ha hb).trans hexec, hsum,
    hregs.reg_ip_of_advanced (by decide), hregs.of_advanced, hmem, hcfg⟩

/-- Settles O42, on each side of the jump's condition. -/
theorem jmpNotEqFromItsBytes : Obligations.JmpNotEqFromItsBytes := by
  intro s hop h1 h3
  obtain ⟨t, hexec, htaken, hpast, hregs, hmem, hcfg⟩ :=
    jmpNotEqCompletes (s.advanced 5) (s.wordAt (s.ipPlus 1)) (s.wordAt (s.ipPlus 3))
  refine ⟨t, (step_jmpNotEq hop h1 h3).trans hexec, ?_, hregs.of_advanced.mono (by simp), hmem, hcfg⟩
  split
  case isTrue heq => exact (hpast heq).trans (State.advanced_reg_ip 5)
  case isFalse hne => exact htaken hne

/-- Settles O46. -/
theorem unrecognisedOpcodeFromItsByte : Obligations.UnrecognisedOpcodeFromItsByte := by
  intro s hfits hop
  obtain ⟨t, hexec, hregs, hmem, hcfg⟩ :=
    unrecognisedOpcodeCompletes (s.advanced 1) (s.byteAt (s.ipPlus 0))
  exact ⟨t, (step_unrecognised hfits hop).trans hexec, hregs.reg_ip_of_advanced List.not_mem_nil,
    hregs.of_advanced, hmem, hcfg⟩

/-! ### The stack: SP is the same before and after the fetch -/

/-- Settles O43. -/
theorem pshLitFromItsBytes : Obligations.PshLitFromItsBytes := by
  intro s hop h1
  have hstep := step_pshLit hop h1
  obtain ⟨hcompletes, hfaults⟩ := pshLitCompletes (s.advanced 3) (s.wordAt (s.ipPlus 1))
  refine ⟨fun hfits => ?_, fun hfits => hstep.trans (hfaults hfits)⟩
  obtain ⟨t, hexec, hword, hmem, hsp, hregs, hcfg⟩ := hcompletes hfits
  exact ⟨t, hstep.trans hexec, hword, hmem, hsp, hregs.reg_ip_of_advanced (by decide),
    hregs.of_advanced, hcfg⟩

/-- Settles O44. -/
theorem pshRegFromItsBytes : Obligations.PshRegFromItsBytes := by
  intro s r hop h1 hr
  have hstep := step_pshReg hop h1 hr
  obtain ⟨hcompletes, hfaults⟩ := pshRegCompletes (s.advanced 2) r
  refine ⟨fun hfits => ?_, fun hfits => hstep.trans (hfaults hfits)⟩
  obtain ⟨t, hexec, hword, hmem, hsp, hregs, hcfg⟩ := hcompletes hfits
  exact ⟨t, hstep.trans hexec, hword.trans (State.advanced_reg 2 r), hmem, hsp,
    hregs.reg_ip_of_advanced (by decide), hregs.of_advanced, hcfg⟩

/-- Settles O45. -/
theorem popFromItsBytes : Obligations.PopFromItsBytes := by
  intro s r hop h1 hr
  have hstep := step_pop hop h1 hr
  obtain ⟨hcompletes, hfaults⟩ := popCompletes (s.advanced 2) r
  refine ⟨fun hfits => ?_, fun hfits => hstep.trans (hfaults hfits)⟩
  obtain ⟨t, hexec, hword, hsp, hregs, hmem, hcfg⟩ := hcompletes hfits
  exact ⟨t, hstep.trans hexec, hword, hsp,
    fun hne => hregs.reg_ip_of_advanced (by simpa using hne.symm), hregs.of_advanced, hmem, hcfg⟩

/-! ### Runs without an end -/

theorem safeFor_of_step_self (h : step s = .next s) (n : Nat) : s.SafeFor n := by
  induction n with
  | zero => trivial
  | succ n ih => exact ⟨s, h, ih⟩

/-- Settles O25: the jump puts IP back to where it was before the fetch. -/
theorem selfJumpSpinsForever : Obligations.SelfJumpSpinsForever := by
  intro s hop h1 h3 hne hself
  have hstep : step s = .next s := by
    rw [step_jmpNotEq hop h1 h3, exec_jmpNotEq, State.advanced_reg_of_ne 5 (by decide), if_neg hne,
      hself, State.advanced, State.setReg_setReg, State.setReg_reg]
  exact ⟨hstep, safeFor_of_step_self hstep⟩

/-- Where every byte is zero and addressable, a step is the one-byte no-op (R88). -/
theorem step_of_zero_memory (hsize : s.cfg.memSize = 65536) (hbase : 1 ≤ s.cfg.opcodeBase)
    (hzero : ∀ a, s.byteAt a = 0) : step s = .next (s.advanced 1) := by
  have hfits : s.fits (s.ipPlus 0) 1 := by
    have hlt : s.ipPlus 0 < 65536 := BitVec.isLt _
    rw [State.fits, hsize]
    omega
  rw [step_unrecognised hfits (.inl (by rw [hzero]; exact hbase)), exec_unrecognised]

theorem safeFor_of_zero_memory (n : Nat) (hsize : s.cfg.memSize = 65536) (hbase : 1 ≤ s.cfg.opcodeBase)
    (hzero : ∀ a, s.byteAt a = 0) : s.SafeFor n := by
  induction n generalizing s with
  | zero => trivial
  | succ n ih =>
    exact ⟨_, step_of_zero_memory hsize hbase hzero, ih (s := s.advanced 1) hsize hbase hzero⟩

/-- Settles O26: a no-op keeps the size, the base and every byte, so the next step is one again. -/
theorem zeroMemoryRunsAsNoOps : Obligations.ZeroMemoryRunsAsNoOps := fun _ n hsize hbase hzero =>
  ⟨safeFor_of_zero_memory n hsize hbase hzero, step_of_zero_memory hsize hbase hzero⟩

end Sys2Proof.Machine
end

section
/-! The whole machine: every instruction as a total effect guarded by its data access, and from it which step
faults, what a step keeps, and what a step changes (R7, R45, R89, R92, R160, R167). -/

namespace Sys2Proof.Machine

variable {s t : State}

/-! ### The effect of an instruction whose data access is in range -/

/-- What an instruction does to the state when its data access, if it has one, is in range. -/
def effect (s : State) : Instr → State
  | .movLitReg lit r   => s.setReg r lit
  | .movRegReg src dst => s.setReg dst (s.reg src)
  | .movRegMem r a     => s.setWord a.toNat (s.reg r)
  | .movMemReg a r     => s.setReg r (s.wordAt a.toNat)
  | .addRegReg ra rb   => s.setReg .acc (s.reg ra + s.reg rb)
  | .jmpNotEq v a      => if v = s.reg .acc then s else s.setReg .ip a
  | .pshLit lit        => s.pushed lit
  | .pshReg r          => s.pushed (s.reg r)
  | .pop r             => (s.setReg .sp (s.reg .sp + 2)).setReg r (s.wordAt (s.reg .sp + 2).toNat)
  | .unrecognised _    => s

/-- Executing an instruction is its effect, guarded by its data access. -/
theorem exec_eq_guard (i : Instr) (s : State) :
    exec i s = guardAccesses s (dataAccesses s i) (.next (effect s i)) := by
  cases i with
  | movLitReg lit r => rfl
  | movRegReg src dst => rfl
  | movRegMem r a => rw [exec_movRegMem, dataAccesses, guardAccesses_singleton]; rfl
  | movMemReg a r => rw [exec_movMemReg, dataAccesses, guardAccesses_singleton]; rfl
  | addRegReg ra rb => rfl
  | jmpNotEq v a => exact exec_jmpNotEq v a
  | pshLit lit => rw [exec_pshLit, dataAccesses, guardAccesses_singleton]; rfl
  | pshReg r => rw [exec_pshReg, dataAccesses, guardAccesses_singleton]; rfl
  | pop r => rw [exec_pop, dataAccesses, guardAccesses_singleton]; rfl
  | unrecognised op => rfl

theorem mem_dataAccesses {i : Instr} {x : Access} (h : x ∈ dataAccesses s i) :
    x.addr < 65536 ∧ x.width = 2 ∧ x.kind ≠ .fetch := by
  cases i with
  | movRegMem | movMemReg | pshLit | pshReg | pop =>
    obtain rfl := List.mem_singleton.mp h
    exact ⟨BitVec.isLt _, rfl, nofun⟩
  | _ => cases h

theorem kind_of_mem_dataAccesses {i : Instr} {x : Access} (h : x ∈ dataAccesses s i) : x.kind ≠ .fetch :=
  have ⟨_, _, hkind⟩ := mem_dataAccesses h
  hkind

theorem width_of_mem_dataAccesses {i : Instr} {x : Access} (h : x ∈ dataAccesses s i) : x.width = 2 :=
  have ⟨_, hwidth, _⟩ := mem_dataAccesses h
  hwidth

theorem length_dataAccesses_le (s : State) (i : Instr) : (dataAccesses s i).length ≤ 1 := by
  cases i with
  | movRegMem | movMemReg | pshLit | pshReg | pop => exact le_rfl
  | _ => exact Nat.zero_le _

/-- A data access depends on the state by SP only. -/
theorem dataAccesses_congr (i : Instr) (h : t.reg .sp = s.reg .sp) :
    dataAccesses t i = dataAccesses s i := by
  cases i <;> simp only [dataAccesses, h]

theorem dataAccesses_fetched (s : State) (i : Instr) : dataAccesses s.fetched i = dataAccesses s i :=
  dataAccesses_congr i (State.advanced_reg_of_ne _ (by decide))

/-! ### A step as one guarded effect -/

theorem accesses_eq_append (s : State) : s.accesses = s.fetches ++ dataAccesses s s.nextInstr := rfl

theorem exec_fetched_eq_guard (i : Instr) (s : State) :
    exec i s.fetched = guardAccesses s (dataAccesses s i) (.next (effect s.fetched i)) := by
  rw [exec_eq_guard, dataAccesses_fetched]
  exact guardAccesses_congr rfl _ _

/-- Everything a step can do, at every memory size. -/
theorem step_eq_guard (s : State) : step s =
    guardAccesses s (s.fetches ++ dataAccesses s s.decoded) (.next (effect s.fetched s.decoded)) := by
  rw [step_eq_guard_exec, exec_fetched_eq_guard, guardAccesses_append]

/-- Everything a step can do at a legal memory size, in the terms of the statements: `nextInstr` is the decoded
instruction unless a fetch faults. -/
theorem step_eq_guard_accesses (hw : s.cfg.wf) : step s =
    guardAccesses s s.accesses (.next (effect s.fetched s.nextInstr)) := by
  rw [step_eq_guard_exec, accesses_eq_append, guardAccesses_append, ← exec_fetched_eq_guard]
  cases h : s.fetches.find? (outOfRange s) with
  | some x => rw [guardAccesses_of_some h, guardAccesses_of_some h]
  | none => rw [decoded_eq_nextInstr hw (find?_outOfRange_eq_none.mp h)]

/-- A completed step: its accesses were in range and the effect of `nextInstr` happened. -/
theorem step_eq_next (hw : s.cfg.wf) (h : step s = .next t) :
    AllFit s s.accesses ∧ effect s.fetched s.nextInstr = t :=
  guardAccesses_eq_next ((step_eq_guard_accesses hw).symm.trans h)

/-- A faulting step reports one of its accesses, which is out of range. -/
theorem step_eq_fault {f : Fault} (h : step s = .fault f) :
    ∃ x ∈ s.fetches ++ dataAccesses s s.decoded,
      ¬ s.fits x.addr x.width ∧ f = .addressError x.addr x.width x.kind :=
  guardAccesses_eq_fault ((step_eq_guard s).symm.trans h)

theorem step_ne_refused (s : State) (r : Refusal) : step s ≠ .refused r :=
  step_eq_guard s ▸ guardAccesses_ne_refused _ _ _ r

/-! ### Which steps fault -/

/-- Settles O15. -/
theorem stepFaultsAtItsFirstOutOfRangeAccess : Obligations.StepFaultsAtItsFirstOutOfRangeAccess := by
  intro s hw
  rw [step_eq_guard_accesses hw]
  split
  case h_1 x hfind => exact guardAccesses_of_some hfind
  case h_2 hfind => exact ⟨_, guardAccesses_of_allFit (find?_outOfRange_eq_none.mp hfind)⟩

/-- Settles O16: five bytes are enough for every layout, and a step's only fault is its guard's. -/
theorem noEncodingIsEverRejected : Obligations.NoEncodingIsEverRejected := by
  refine ⟨fun base b0 b1 b2 b3 b4 => ?_, fun b => ⟨_, Reg.number_ofByte b, rfl⟩, step_ne_refused,
    fun s f h => ?_⟩
  · exact ⟨_, decode_cons_of_le (sizeOfOperands_layout_le base b0)⟩
  · obtain ⟨x, -, hout, hf⟩ := step_eq_fault h
    exact ⟨x.addr, x.width, x.kind, hf, hout⟩

/-- Settles O17: an access begins below 65536 and is at most two bytes wide. -/
theorem defaultSizeFaultsOnlyAtTopByte : Obligations.DefaultSizeFaultsOnlyAtTopByte := by
  intro s f hsize h
  obtain ⟨x, hx, hout, rfl⟩ := step_eq_fault h
  have hbounds : x.addr < 65536 ∧ x.width ≤ 2 := by
    rcases List.mem_append.mp hx with hx | hx
    · obtain ⟨haddr, hwidth, -⟩ := mem_fetches hx
      exact ⟨haddr, hwidth⟩
    · obtain ⟨haddr, hwidth, -⟩ := mem_dataAccesses hx
      exact ⟨haddr, hwidth.le⟩
  obtain ⟨haddr, hwidth⟩ := hbounds
  rw [State.fits, hsize] at hout
  have hlast : x.addr = 0xFFFF ∧ x.width = 2 := by omega
  exact ⟨x.kind, by rw [hlast.1, hlast.2]⟩

/-! ### What a step keeps -/

theorem wf_effect {i : Instr} (h : s.wf) (hfit : AllFit s (dataAccesses s i)) : (effect s i).wf := by
  cases i with
  | movRegMem r a => exact State.wf_setWord h (hfit _ (List.mem_singleton_self _))
  | pshLit lit => exact State.wf_setWord h (hfit _ (List.mem_singleton_self _))
  | pshReg r => exact State.wf_setWord h (hfit _ (List.mem_singleton_self _))
  | jmpNotEq v a =>
    rw [effect]
    split <;> exact h
  | movLitReg | movRegReg | movMemReg | addRegReg | pop | unrecognised => exact h

theorem cfg_effect (s : State) (i : Instr) : (effect s i).cfg = s.cfg := by
  cases i with
  | jmpNotEq v a =>
    rw [effect]
    split <;> rfl
  | _ => rfl

/-- Settles O18: the fetch moves IP only, and the effect stores only where its access is in range. -/
theorem stepKeepsWellFormed : Obligations.StepKeepsWellFormed := by
  intro s t hwf hstep
  obtain ⟨hfit, rfl⟩ := step_eq_next hwf.1 hstep
  have hdata : AllFit s.fetched (dataAccesses s.fetched s.nextInstr) := fun x hx =>
    hfit x (List.mem_append_right s.fetches (dataAccesses_fetched s _ ▸ hx))
  exact ⟨wf_effect (State.wf_setReg _ _ hwf) hdata, cfg_effect s.fetched s.nextInstr⟩

/-! ### What a step changes -/

/-- An effect changes the listed registers, and IP when it is a taken jump. -/
theorem effect_reg {i : Instr} {q : Reg} (hq : q ∉ i.writes)
    (hjump : ∀ v a, i = .jmpNotEq v a → v = s.reg .acc ∨ q ≠ .ip) : (effect s i).reg q = s.reg q := by
  cases i with
  | movLitReg lit r => exact sameRegsBut_setReg _ _ q hq
  | movRegReg src dst => exact sameRegsBut_setReg _ _ q hq
  | movRegMem r a => rfl
  | movMemReg a r => exact sameRegsBut_setReg _ _ q hq
  | addRegReg ra rb => exact sameRegsBut_setReg _ _ q hq
  | jmpNotEq v a =>
    rw [effect]
    split
    case isTrue => rfl
    case isFalse hv => exact State.reg_setReg_ne _ _ _ _ ((hjump v a rfl).resolve_left hv)
  | pshLit lit => exact pushed_sameRegsBut s lit q hq
  | pshReg r => exact pushed_sameRegsBut s _ q hq
  | pop r => exact ((SameRegsBut.refl [.sp, r] s).setReg _ (by simp)).setReg _ (by simp) q hq
  | unrecognised op => rfl

theorem effect_sameRegsBut (s : State) (i : Instr) : SameRegsBut (.ip :: i.writes) s (effect s i) := by
  intro q hq
  obtain ⟨hip, hwrites⟩ := List.ne_and_not_mem_of_not_mem_cons hq
  exact effect_reg hwrites fun _ _ _ => .inr hip

/-- A byte outside the write accesses reads as before. -/
theorem effect_byteAt {i : Instr} {a : Nat}
    (h : ∀ x ∈ dataAccesses s i, x.kind = .write → a < x.addr ∨ x.addr + x.width ≤ a) :
    (effect s i).byteAt a = s.byteAt a := by
  cases i with
  | movRegMem r c => exact setWord_sameMemoryBut a (h _ (List.mem_singleton_self _) rfl)
  | pshLit lit => exact pushed_sameMemoryBut s lit a (h _ (List.mem_singleton_self _) rfl)
  | pshReg r => exact pushed_sameMemoryBut s _ a (h _ (List.mem_singleton_self _) rfl)
  | jmpNotEq v c =>
    rw [effect]
    split <;> rfl
  | movLitReg | movRegReg | movMemReg | addRegReg | pop | unrecognised => rfl

/-- The registers a fetch and an effect together can change. -/
theorem effect_fetched_sameRegsBut (s : State) (i : Instr) :
    SameRegsBut (.ip :: i.writes) s (effect s.fetched i) :=
  (effect_sameRegsBut s.fetched i).of_advanced.mono (by simp)

/-- Settles O20. -/
theorem stepChangesOnlyWhatItsInstructionWrites :
    Obligations.StepChangesOnlyWhatItsInstructionWrites := by
  intro s t hw hstep
  obtain ⟨-, rfl⟩ := step_eq_next hw hstep
  refine ⟨effect_fetched_sameRegsBut s s.nextInstr, fun a ha => ?_⟩
  exact effect_byteAt (s := s.fetched) fun x hx => ha x (dataAccesses_fetched s _ ▸ hx)

theorem length_encode_nextInstr (s : State) : (encode s.cfg.opcodeBase s.nextInstr).length =
    instrLength s.cfg.opcodeBase (s.byteAt (s.ipPlus 0)) := length_encode_decodeOperands ..

/-- Settles O19: the fetch moves IP past the instruction, and only a taken jump or a destination IP moves it
again. -/
theorem ipAdvancesUnlessOverwritten : Obligations.IpAdvancesUnlessOverwritten := by
  intro s t hw hstep
  obtain ⟨-, rfl⟩ := step_eq_next hw hstep
  have hacc : s.fetched.reg .acc = s.reg .acc := State.advanced_reg_of_ne _ (by decide)
  refine ⟨fun v a hi hne => ?_, fun hjump hwrites => ?_⟩
  · rw [hi, effect, hacc, if_neg hne, State.reg_setReg_same]
  · rw [effect_reg hwrites fun v a hi => .inl ((hjump v a hi).trans hacc.symm),
      length_encode_nextInstr]
    exact State.advanced_reg_ip _

/-! ### Bounds -/

theorem sum_width_fetchAccesses (p : Word) (ks : List OperandKind) :
    ((fetchAccesses p ks).map Access.width).sum = sizeOfOperands ks := by
  induction ks generalizing p with
  | nil => rfl
  | cons k ks ih => rw [fetchAccesses, List.map_cons, List.sum_cons, ih, sizeOfOperands]

theorem sum_width_fetches_le (s : State) : (s.fetches.map Access.width).sum ≤ 5 := by
  have hsize := sizeOfOperands_layout_le s.cfg.opcodeBase (s.byteAt (s.ipPlus 0))
  rw [State.fetches, List.map_cons, List.sum_cons, sum_width_fetchAccesses]
  exact Nat.add_le_add_left hsize 1

theorem filter_fetch_accesses (s : State) :
    s.accesses.filter (fun x => x.kind = .fetch) = s.fetches := by
  rw [accesses_eq_append, List.filter_append,
    List.filter_eq_self.mpr fun x hx => decide_eq_true (kind_of_mem_fetches hx),
    List.filter_eq_nil_iff.mpr fun x hx => by simpa using (kind_of_mem_dataAccesses hx),
    List.append_nil]

theorem filter_not_fetch_accesses (s : State) :
    s.accesses.filter (fun x => x.kind ≠ .fetch) = dataAccesses s s.nextInstr := by
  rw [accesses_eq_append, List.filter_append,
    List.filter_eq_nil_iff.mpr fun x hx => by simpa using (kind_of_mem_fetches hx),
    List.filter_eq_self.mpr fun x hx => decide_eq_true (kind_of_mem_dataAccesses hx),
    List.nil_append]

/-- R92's two registers besides IP: POP's, and fewer of every other instruction. -/
theorem writes_subset_pair (i : Instr) : ∃ p q : Reg, i.writes ⊆ [p, q] := by
  cases i with
  | movLitReg lit r => exact ⟨r, r, by simp [Instr.writes]⟩
  | movRegReg src dst => exact ⟨dst, dst, by simp [Instr.writes]⟩
  | movMemReg a r => exact ⟨r, r, by simp [Instr.writes]⟩
  | pop r => exact ⟨.sp, r, by simp [Instr.writes]⟩
  | addRegReg ra rb => exact ⟨.acc, .acc, by simp [Instr.writes]⟩
  | _ => exact ⟨.sp, .sp, by simp [Instr.writes]⟩

/-- Settles O23. -/
theorem stepIsBounded : Obligations.StepIsBounded := by
  intro s t
  rw [filter_fetch_accesses, filter_not_fetch_accesses]
  refine ⟨sum_width_fetches_le s, length_dataAccesses_le s s.nextInstr, fun x hx hkind => ?width,
    fun hstep => ?registers⟩
  case width =>
    rcases List.mem_append.mp (accesses_eq_append s ▸ hx) with hx | hx
    · exact absurd (kind_of_mem_fetches hx) hkind
    · exact width_of_mem_dataAccesses hx
  case registers =>
    obtain ⟨-, rfl⟩ := guardAccesses_eq_next ((step_eq_guard s).symm.trans hstep)
    obtain ⟨p, q, hsub⟩ := writes_subset_pair s.decoded
    exact ⟨p, q, (effect_fetched_sameRegsBut s s.decoded).mono (List.cons_subset_cons _ hsub)⟩

end Sys2Proof.Machine
end

section
/-! Isolation (R21, R26, R92) and the bytes a step fetches (R51, R142): what has no influence on a step, and what
the next fetch sees. -/

namespace Sys2Proof.Machine

variable {s t u : State}

/-! ### Registers that have no influence -/

theorem pushed_setReg {q : Reg} (v w : Word) (hq : q ≠ .sp) :
    (s.setReg q v).pushed w = (s.pushed w).setReg q v := by
  rw [State.pushed, State.reg_setReg_ne _ _ _ _ hq.symm, State.setWord_setReg,
    State.setReg_comm _ _ _ _ _ hq.symm]
  rfl

/-- A register outside `uses` is neither read nor written by the effect. -/
theorem effect_setReg {i : Instr} {q : Reg} (v : Word) (hip : q ≠ .ip) (hq : q ∉ i.uses) :
    effect (s.setReg q v) i = (effect s i).setReg q v := by
  have hread {r : Reg} (h : q ≠ r) : (s.setReg q v).reg r = s.reg r :=
    State.reg_setReg_ne _ _ _ _ h.symm
  have hwrite {x : State} {r : Reg} (w : Word) (h : q ≠ r) :
      (x.setReg q v).setReg r w = (x.setReg r w).setReg q v := State.setReg_comm _ _ _ _ _ h.symm
  cases i <;> simp only [Instr.uses, List.mem_cons, List.not_mem_nil, or_false, not_or] at hq
  case movLitReg lit r => exact hwrite lit hq
  case movRegReg src dst =>
    obtain ⟨hsrc, hdst⟩ := hq
    rw [effect, hread hsrc, hwrite _ hdst, effect]
  case movRegMem r a => rw [effect, hread hq, State.setWord_setReg, effect]
  case movMemReg a r => exact hwrite _ hq
  case addRegReg ra rb =>
    obtain ⟨ha, hb, hacc⟩ := hq
    rw [effect, hread ha, hread hb, hwrite _ hacc, effect]
  case jmpNotEq value a =>
    rw [effect, hread hq, effect]
    split
    · rfl
    · exact hwrite a hip
  case pshLit lit => exact pushed_setReg v lit hq
  case pshReg r =>
    obtain ⟨hr, hsp⟩ := hq
    rw [effect, hread hr, pushed_setReg v _ hsp, effect]
  case pop r =>
    obtain ⟨hr, hsp⟩ := hq
    rw [effect, hread hsp, State.wordAt_setReg, hwrite _ hsp, hwrite _ hr, effect]
  case unrecognised op => rfl

theorem dataAccesses_setReg {i : Instr} {q : Reg} (v : Word) (hq : q ∉ i.uses) :
    dataAccesses (s.setReg q v) i = dataAccesses s i := by
  cases i with
  | pshLit | pshReg | pop =>
    exact dataAccesses_congr _ (State.reg_setReg_ne _ _ _ _ fun h => hq (by simp [Instr.uses, h]))
  | _ => rfl

theorem fetches_setReg {q : Reg} (v : Word) (hip : q ≠ .ip) : (s.setReg q v).fetches = s.fetches := by
  simp only [State.fetches, State.ipPlus, State.reg_setReg_ne s q .ip v hip.symm, State.setReg_byteAt,
    State.setReg_cfg]

theorem nextInstr_setReg {q : Reg} (v : Word) (hip : q ≠ .ip) :
    (s.setReg q v).nextInstr = s.nextInstr := by
  simp only [State.nextInstr, State.ipPlus, State.reg_setReg_ne s q .ip v hip.symm, State.setReg_byteAt,
    State.setReg_cfg]

theorem fetched_setReg {q : Reg} (v : Word) (hip : q ≠ .ip) :
    (s.setReg q v).fetched = s.fetched.setReg q v := by
  simp only [State.fetched, State.ipPlus, State.reg_setReg_ne s q .ip v hip.symm, State.setReg_byteAt,
    State.setReg_cfg]
  exact State.setReg_comm _ _ _ _ _ hip.symm

/-- With another value in a register it does not use, a step has the same accesses and the same effect elsewhere. -/
theorem step_setReg {q : Reg} (v : Word) (hw : s.cfg.wf) (hip : q ≠ .ip) (hq : q ∉ s.nextInstr.uses) :
    step (s.setReg q v) =
      guardAccesses s s.accesses (.next ((effect s.fetched s.nextInstr).setReg q v)) := by
  have haccesses : (s.setReg q v).accesses = s.accesses := by
    rw [accesses_eq_append, fetches_setReg v hip, nextInstr_setReg v hip, dataAccesses_setReg v hq,
      ← accesses_eq_append]
  rw [step_eq_guard_accesses (s := s.setReg q v) hw, haccesses, nextInstr_setReg v hip,
    fetched_setReg v hip, effect_setReg v hip hq, guardAccesses_congr (State.setReg_cfg s q v)]

/-- Settles O21: both steps are guarded by the same accesses. -/
theorem unnamedRegisterHasNoInfluence : Obligations.UnnamedRegisterHasNoInfluence := by
  intro s q v hw hip hq
  rw [step_setReg v hw hip hq, step_eq_guard_accesses hw]
  cases h : s.accesses.find? (outOfRange s) with
  | none => simp only [guardAccesses, h]
  | some x => simp only [guardAccesses, h]

/-! ### Bytes that have no influence -/

/-- `u` is `t` with `v` at address `a`, as far as reads can tell. -/
structure PatchedAt (a : Nat) (v : Byte) (t u : State) : Prop where
  regs : u.regs = t.regs
  cfg : u.cfg = t.cfg
  byteAt : ∀ b, u.byteAt b = if b = a then v else t.byteAt b

variable {a : Nat} {v : Byte}

theorem patchedAt_setByte (s : State) (a : Nat) (v : Byte) : PatchedAt a v s (s.setByte a v) :=
  ⟨rfl, rfl, fun b => State.byteAt_setByte s a b v⟩

theorem PatchedAt.reg (h : PatchedAt a v t u) (r : Reg) : u.reg r = t.reg r :=
  congrArg (Regs.get · r) h.regs

theorem PatchedAt.byteAt_of_ne (h : PatchedAt a v t u) {b : Nat} (hb : b ≠ a) :
    u.byteAt b = t.byteAt b := (h.byteAt b).trans (if_neg hb)

theorem PatchedAt.wordAt (h : PatchedAt a v t u) {c : Nat} (hc : a < c ∨ c + 2 ≤ a) :
    u.wordAt c = t.wordAt c := by
  rw [wordAt_eq, wordAt_eq, h.byteAt_of_ne (by omega), h.byteAt_of_ne (by omega)]

theorem PatchedAt.setReg (h : PatchedAt a v t u) (r : Reg) (w : Word) :
    PatchedAt a v (t.setReg r w) (u.setReg r w) :=
  ⟨congrArg (Regs.set · r w) h.regs, h.cfg, h.byteAt⟩

/-- A store elsewhere keeps the patch. -/
theorem PatchedAt.setWord (h : PatchedAt a v t u) {c : Nat} (w : Word) (hc : a < c ∨ c + 2 ≤ a) :
    PatchedAt a v (t.setWord c w) (u.setWord c w) := by
  refine ⟨h.regs, h.cfg, fun b => ?_⟩
  rw [State.byteAt_setWord, State.byteAt_setWord, h.byteAt]
  by_cases hb : b = a
  · rw [if_pos hb, if_pos hb, if_neg (by omega), if_neg (by omega)]
  · rw [if_neg hb, if_neg hb]

theorem PatchedAt.pushed (h : PatchedAt a v t u) (w : Word)
    (hsp : a < (t.reg .sp).toNat ∨ (t.reg .sp).toNat + 2 ≤ a) :
    PatchedAt a v (t.pushed w) (u.pushed w) := by
  rw [State.pushed, State.pushed, h.reg]
  exact (h.setWord w hsp).setReg _ _

/-- A byte outside the data access is neither read nor written by the effect. -/
theorem PatchedAt.effect {i : Instr} (h : PatchedAt a v t u)
    (hout : ∀ x ∈ dataAccesses t i, a < x.addr ∨ x.addr + x.width ≤ a) :
    PatchedAt a v (effect t i) (effect u i) := by
  cases i with
  | movLitReg lit r => exact h.setReg r lit
  | movRegReg src dst =>
    rw [Machine.effect, Machine.effect, h.reg]
    exact h.setReg _ _
  | movRegMem r c =>
    rw [Machine.effect, Machine.effect, h.reg]
    exact h.setWord _ (hout _ (List.mem_singleton_self _))
  | movMemReg c r =>
    rw [Machine.effect, Machine.effect, h.wordAt (hout _ (List.mem_singleton_self _))]
    exact h.setReg _ _
  | addRegReg ra rb =>
    rw [Machine.effect, Machine.effect, h.reg, h.reg]
    exact h.setReg _ _
  | jmpNotEq value c =>
    rw [Machine.effect, Machine.effect, h.reg]
    split
    · exact h
    · exact h.setReg _ _
  | pshLit lit => exact h.pushed lit (hout _ (List.mem_singleton_self _))
  | pshReg r =>
    rw [Machine.effect, Machine.effect, h.reg]
    exact h.pushed _ (hout _ (List.mem_singleton_self _))
  | pop r =>
    rw [Machine.effect, Machine.effect, h.reg, h.wordAt (hout _ (List.mem_singleton_self _))]
    exact (h.setReg _ _).setReg _ _
  | unrecognised op => exact h

theorem operandsBytesAt_setByte {p : Word} {ks : List OperandKind}
    (hout : ∀ x ∈ fetchAccesses p ks, a < x.addr ∨ x.addr + x.width ≤ a) :
    operandsBytesAt (s.setByte a v) p ks = operandsBytesAt s p ks := by
  induction ks generalizing p with
  | nil => rfl
  | cons k ks ih =>
    obtain ⟨hk, hks⟩ := List.forall_mem_cons.mp hout
    rw [operandsBytesAt, operandsBytesAt, ih hks]
    congr 1
    cases k with
    | reg8 =>
      have hk : a < p.toNat ∨ p.toNat + 1 ≤ a := hk
      rw [operandBytesAt, operandBytesAt, State.byteAt_setByte_ne s v (by omega)]
    | word16 =>
      have hk : a < p.toNat ∨ p.toNat + 2 ≤ a := hk
      rw [operandBytesAt, operandBytesAt, State.byteAt_setByte_ne s v (by omega),
        State.byteAt_setByte_ne s v (by omega)]

/-- The next fetch does not see a byte outside its accesses. -/
theorem fetch_setByte (hout : ∀ x ∈ s.fetches, a < x.addr ∨ x.addr + x.width ≤ a) :
    (s.setByte a v).fetches = s.fetches ∧ (s.setByte a v).decoded = s.decoded ∧
      (s.setByte a v).fetched = s.fetched.setByte a v := by
  obtain ⟨hop, hargs⟩ := List.forall_mem_cons.mp hout
  have hne : s.ipPlus 0 ≠ a := by
    have hop : a < s.ipPlus 0 ∨ s.ipPlus 0 + 1 ≤ a := hop
    omega
  have hbyte : (s.setByte a v).byteAt ((s.setByte a v).ipPlus 0) = s.byteAt (s.ipPlus 0) :=
    State.byteAt_setByte_ne s v hne
  refine ⟨?_, ?_, ?_⟩
  · rw [State.fetches, hbyte]
    rfl
  · rw [State.decoded, hbyte]
    exact congrArg _ (operandsBytesAt_setByte hargs)
  · rw [State.fetched, hbyte]
    rfl

/-- With another byte outside its accesses, a step has the same accesses. -/
theorem step_setByte (hw : s.cfg.wf) (hout : ∀ x ∈ s.accesses, a < x.addr ∨ x.addr + x.width ≤ a) :
    step (s.setByte a v) =
      guardAccesses s s.accesses (.next (effect (s.fetched.setByte a v) s.nextInstr)) := by
  obtain ⟨hfetches, hdecoded, hfetched⟩ :=
    fetch_setByte (v := v) fun x hx => hout x (List.mem_append_left _ hx)
  rw [step_eq_guard_exec, hfetches, hdecoded, hfetched, guardAccesses_congr (State.setByte_cfg s a v),
    accesses_eq_append, guardAccesses_append]
  cases h : s.fetches.find? (outOfRange s) with
  | some x => rw [guardAccesses_of_some h, guardAccesses_of_some h]
  | none =>
    have hdata : dataAccesses (s.fetched.setByte a v) s.nextInstr = dataAccesses s s.nextInstr :=
      (dataAccesses_congr s.nextInstr rfl).trans (dataAccesses_fetched s _)
    rw [decoded_eq_nextInstr hw (find?_outOfRange_eq_none.mp h), exec_eq_guard, hdata,
      guardAccesses_congr (t := s.fetched.setByte a v) (s := s) rfl]

/-- Settles O22: both steps are guarded by the same accesses, and the effect keeps the patch. -/
theorem unaccessedByteHasNoInfluence : Obligations.UnaccessedByteHasNoInfluence := by
  intro s a v hw hout
  have hpatch : PatchedAt a v (effect s.fetched s.nextInstr)
      (effect (s.fetched.setByte a v) s.nextInstr) :=
    (patchedAt_setByte s.fetched a v).effect fun x hx =>
      hout x (List.mem_append_right s.fetches (dataAccesses_fetched s _ ▸ hx))
  rw [step_setByte hw hout, step_eq_guard_accesses hw]
  cases h : s.accesses.find? (outOfRange s) with
  | some x => simp only [guardAccesses, h]
  | none =>
    simp only [guardAccesses, h]
    exact ⟨_, rfl, hpatch.regs, hpatch.cfg, hpatch.byteAt⟩

/-! ### What the next fetch sees -/

theorem toNat_add_ofNat_of_lt {p : Word} {n : Nat} (h : p.toNat + n < 65536) :
    (p + BitVec.ofNat 16 n).toNat = p.toNat + n := by
  rw [BitVec.toNat_add, BitVec.toNat_ofNat]
  omega

/-- Settles O24: the two bytes just stored stand at IP and at IP + 1, which does not wrap since the store was in
range. -/
theorem nextFetchSeesTheStoredBytes : Obligations.NextFetchSeesTheStoredBytes := by
  intro s t r a hw hstep hi hip
  obtain ⟨hfit, rfl⟩ := step_eq_next hw hstep
  rw [hi] at hip ⊢
  have hlen : instrLength s.cfg.opcodeBase (s.byteAt (s.ipPlus 0)) = 4 := by
    rw [← length_encode_nextInstr, hi]
    rfl
  have hvalue : s.fetched.reg r = s.sourceValue 4 r := by
    rw [State.fetched_eq_advanced, hlen, State.advanced_reg]
  have hstore : a.toNat + 2 ≤ s.cfg.memSize :=
    hfit ⟨a.toNat, 2, .write⟩ (List.mem_append_right s.fetches (hi ▸ List.mem_singleton_self _))
  obtain ⟨-, -, hmax, -⟩ := hw
  refine ⟨_, _, highByte_toNat _, lowByte_toNat _, ?_⟩
  rw [State.nextInstr, ipPlus_zero, State.ipPlus, hip, toNat_add_ofNat_of_lt (by omega), effect,
    State.byteAt_setWord, State.byteAt_setWord, if_pos rfl, if_neg (Nat.succ_ne_self _), if_pos rfl, hvalue]
  rfl

/-- Placed bytes are read where the fetch meets them, and every other byte reads as before. -/
theorem byteAt_placeBytes (bs : List Byte) (p : Word) (s : State) (c : Nat)
    (hfit : p.toNat + bs.length ≤ s.cfg.memSize) (hlt : p.toNat + bs.length < 65536) :
    (placeBytes bs p s).byteAt c =
      if p.toNat ≤ c ∧ c < p.toNat + bs.length then bs.getD (c - p.toNat) 0 else s.byteAt c := by
  induction bs generalizing p s with
  | nil => rw [placeBytes, if_neg (by simp)]
  | cons b bs ih =>
    rw [List.length_cons] at hfit hlt
    have hp : (p + 1).toNat = p.toNat + 1 := toNat_add_ofNat_of_lt (n := 1) (by omega)
    rw [placeBytes, if_pos (inRange_iff.mpr (by rw [State.fits]; omega)),
      ih _ _ (by rw [hp, State.setByte_cfg]; omega) (by omega), hp, State.byteAt_setByte,
      List.length_cons]
    by_cases hc : c = p.toNat
    · subst hc
      rw [if_neg (by omega), if_pos rfl, if_pos (by omega), Nat.sub_self]
      rfl
    · by_cases hin : p.toNat + 1 ≤ c ∧ c < p.toNat + 1 + bs.length
      · have hsucc : c - p.toNat = c - (p.toNat + 1) + 1 := by omega
        rw [if_pos hin, if_pos (by omega), hsucc, List.getD_cons_succ]
      · rw [if_neg hin, if_neg hc, if_neg (by omega)]

/-- Fetches that stay below the memory's end, and below the wrap of IP, are in range. -/
theorem allFit_fetchAccesses {p : Word} {ks : List OperandKind}
    (hfit : p.toNat + sizeOfOperands ks ≤ s.cfg.memSize) (hlt : p.toNat + sizeOfOperands ks < 65536) :
    AllFit s (fetchAccesses p ks) := by
  induction ks generalizing p with
  | nil => exact List.forall_mem_nil _
  | cons k ks ih =>
    rw [sizeOfOperands] at hfit hlt
    have hp : (p + BitVec.ofNat 16 k.size).toNat = p.toNat + k.size :=
      toNat_add_ofNat_of_lt (by omega)
    have hk : s.fits p.toNat k.size := by
      rw [State.fits]
      omega
    exact List.forall_mem_cons.mpr ⟨hk, ih (by omega) (by omega)⟩

theorem decodeTableWord_eq_some {nbits w : Nat} {i : Instr} (h : decodeTableWord nbits w = some i) :
    decodeOperands Config.default.opcodeBase ((tableBytes nbits w).getD 0 0)
      [(tableBytes nbits w).getD 1 0, (tableBytes nbits w).getD 2 0, (tableBytes nbits w).getD 3 0,
        (tableBytes nbits w).getD 4 0] = i := by
  rw [decodeTableWord, tableBytes, decode_cons_of_le (sizeOfOperands_layout_le _ _)] at h
  exact Option.some.inj h

theorem withFetchWord_reset (nbits w : Nat) : (State.reset.withFetchWord nbits w).regs = State.reset.regs ∧
    (State.reset.withFetchWord nbits w).cfg = Config.default :=
  have ⟨_, hregs, hcfg⟩ := placeBytes_wf (tableBytes nbits w) (State.reset.reg .ip)
    (State.resetWith_wf (c := Config.default) (by decide))
  ⟨hregs, hcfg⟩

theorem reg_ip_withFetchWord_reset (nbits w : Nat) : (State.reset.withFetchWord nbits w).reg .ip = 0#16 :=
  congrArg (Regs.get · .ip) (withFetchWord_reset nbits w).1

/-- From IP = 0 the five placed bytes are those at IP to IP + 4. -/
theorem byteAt_withFetchWord_reset (nbits w : Nat) {k : Nat} (hk : k < 5) :
    (State.reset.withFetchWord nbits w).byteAt ((State.reset.withFetchWord nbits w).ipPlus k) =
      (tableBytes nbits w).getD k 0 := by
  have hlen : (tableBytes nbits w).length = 5 := rfl
  have hzero : (State.reset.reg .ip).toNat = 0 := rfl
  have hsize : State.reset.cfg.memSize = 65536 := rfl
  have haddr : (State.reset.withFetchWord nbits w).ipPlus k = k := by
    rw [State.ipPlus, reg_ip_withFetchWord_reset, BitVec.zero_add, BitVec.toNat_ofNat]
    omega
  rw [haddr, State.withFetchWord, byteAt_placeBytes _ _ _ _ (by omega) (by omega), hzero,
    if_pos (by omega), Nat.sub_zero]

theorem allFit_fetches_withFetchWord_reset (nbits w : Nat) :
    AllFit (State.reset.withFetchWord nbits w) (State.reset.withFetchWord nbits w).fetches := by
  have hip := reg_ip_withFetchWord_reset nbits w
  have hsize : (State.reset.withFetchWord nbits w).cfg.memSize = 65536 :=
    congrArg Config.memSize (withFetchWord_reset nbits w).2
  have hone : (0#16 + 1 : Word).toNat = 1 := rfl
  have hargs := sizeOfOperands_layout_le (State.reset.withFetchWord nbits w).cfg.opcodeBase
    ((State.reset.withFetchWord nbits w).byteAt ((State.reset.withFetchWord nbits w).ipPlus 0))
  refine List.forall_mem_cons.mpr ⟨?_, ?_⟩
  · rw [State.fits, ipPlus_zero, hip, hsize]
    decide
  · rw [hip]
    exact allFit_fetchAccesses (by omega) (by omega)

/-- Settles O14: from reset the placed bytes are those at IP, all of them addressable. -/
theorem placedWordIsRunFirst : Obligations.PlacedWordIsRunFirst := by
  intro nbits w i hi
  have hip := reg_ip_withFetchWord_reset nbits w
  obtain ⟨-, hcfg⟩ := withFetchWord_reset nbits w
  have hnext : (State.reset.withFetchWord nbits w).nextInstr = i := by
    rw [State.nextInstr, hcfg, byteAt_withFetchWord_reset _ _ (by decide),
      byteAt_withFetchWord_reset _ _ (by decide), byteAt_withFetchWord_reset _ _ (by decide),
      byteAt_withFetchWord_reset _ _ (by decide), byteAt_withFetchWord_reset _ _ (by decide),
      decodeTableWord_eq_some hi]
  have hlen := length_encode_nextInstr (State.reset.withFetchWord nbits w)
  rw [hnext, hcfg] at hlen
  have hfit := allFit_fetches_withFetchWord_reset nbits w
  rw [step_of_allFit hfit, decoded_eq_nextInstr (hcfg ▸ by decide) hfit, hnext, hlen, State.fetched,
    hip, hcfg, BitVec.zero_add]

end Sys2Proof.Machine
end

section
/-! The stack as a sequence of effects (spec/44_stack.md R133, spec/30_encoding.md R73): a pop gives back what was
pushed, at any depth. -/

namespace Sys2Proof.Machine

variable {s t u : State}

/-! ### One push and one pop -/

theorem SameMemory.wordAt (h : SameMemory s t) (a : Nat) : t.wordAt a = s.wordAt a := by
  rw [wordAt_eq, wordAt_eq, h, h]

/-- A push moves SP to where the next pop finds the pushed word. -/
theorem State.pushed_reg_sp_add_two (s : State) (v : Word) : (s.pushed v).reg .sp + 2 = s.reg .sp := by
  rw [State.pushed_reg_sp, BitVec.sub_add_cancel]

/-- A pop from a state whose SP is 2 below `c`, where the slot at `c` exists. -/
theorem exec_pop_at {c : Word} (r : Reg) (hsp : s.reg .sp + 2 = c) (hfits : s.fits c.toNat 2) :
    ∃ t, exec (.pop r) s = .next t ∧ t.reg r = s.wordAt c.toNat ∧ (r ≠ .sp → t.reg .sp = c) ∧
      SameMemory s t ∧ t.cfg = s.cfg := by
  subst hsp
  obtain ⟨hcompletes, -⟩ := popCompletes s r
  obtain ⟨t, hexec, hword, hsp, -, hmem, hcfg⟩ := hcompletes hfits
  exact ⟨t, hexec, hword, hsp, hmem, hcfg⟩

/-- Settles O47. -/
theorem pushThenPopGivesTheValueBack : Obligations.PushThenPopGivesTheValueBack := by
  intro s r q hq hfits
  obtain ⟨u, hpop, hword, hsp, hmem, -⟩ :=
    exec_pop_at q (s.pushed_reg_sp_add_two (s.reg r)) (hfits : (s.pushed (s.reg r)).fits _ 2)
  rw [State.pushed_wordAt] at hword
  refine ⟨s.pushed (s.reg r), u, (exec_pshReg r).trans (if_pos hfits), hpop, hword, hsp hq, ?_⟩
  rw [hmem.wordAt, State.pushed_wordAt]

/-- Settles O50: the call leaves SP 2 below the slot of the return address, and a return reads that slot. -/
theorem callIdiomReturns : Obligations.CallIdiomReturns := by
  intro s ret sub hfits
  refine ⟨s.pushed ret, _, (exec_pshLit ret).trans (if_pos hfits), exec_movLitReg sub .ip,
    State.reg_setReg_same .., fun w hcfg hsp hword => ?_⟩
  have hslot : w.reg .sp + 2 = s.reg .sp := by
    rw [hsp, State.reg_setReg_ne _ _ _ _ (by decide), State.pushed_reg_sp_add_two]
  have hfits' : w.fits (s.reg .sp).toNat 2 := by
    rw [State.fits, hcfg]
    exact hfits
  obtain ⟨x, hpop, hip, hspx, -, -⟩ := exec_pop_at .ip hslot hfits'
  rw [hword, State.wordAt_setReg, State.pushed_wordAt] at hip
  exact ⟨x, hpop, hip, hspx (by decide)⟩

/-! ### Runs of pushes and pops -/

theorem pushWords_cons {v : Word} {vs : List Word} (hfits : s.fits (s.reg .sp).toNat 2) :
    pushWords (v :: vs) s = pushWords vs (s.pushed v) := by
  rw [pushWords, (exec_pshLit v).trans (if_pos hfits)]
  rfl

theorem popWords_succ {r : Reg} {n : Nat} (hpop : exec (.pop r) s = .next t) :
    popWords r (n + 1) s = (popWords r n t).map fun p => (t.reg r :: p.1, p.2) := by
  rw [popWords, hpop]

theorem popWords_succ_eq_some {r : Reg} {n : Nat} {ws : List Word}
    (h : popWords r (n + 1) s = some (ws, u)) :
    ∃ t ws', exec (.pop r) s = .next t ∧ popWords r n t = some (ws', u) ∧ ws = t.reg r :: ws' := by
  cases hpop : exec (.pop r) s with
  | next t =>
    rw [popWords_succ hpop, Option.map_eq_some_iff] at h
    obtain ⟨⟨ws', u'⟩, hrest, hpair⟩ := h
    obtain ⟨rfl, rfl⟩ := Prod.mk.inj hpair
    exact ⟨t, ws', rfl, hrest, rfl⟩
  | fault f =>
    rw [popWords, hpop] at h
    cases h
  | refused f =>
    rw [popWords, hpop] at h
    cases h

/-- One pop more at the end of a run of pops. -/
theorem popWords_append_last {r : Reg} {n : Nat} {ws : List Word} {x : State}
    (h : popWords r n s = some (ws, u)) (hpop : exec (.pop r) u = .next x) :
    popWords r (n + 1) s = some (ws ++ [x.reg r], x) := by
  induction n generalizing s ws with
  | zero =>
    obtain ⟨rfl, rfl⟩ := Prod.mk.inj (Option.some.inj h)
    rw [popWords_succ hpop]
    rfl
  | succ n ih =>
    obtain ⟨t, ws', hfirst, hrest, rfl⟩ := popWords_succ_eq_some h
    rw [popWords_succ hfirst, ih hrest]
    rfl

/-- From `s`, pushing `vs` leads to `t` and as many pops to `u`, which give the words back in reverse order. The
pushes write no byte above the slot of the first one. -/
structure LastInFirstOut (r : Reg) (vs : List Word) (s t u : State) : Prop where
  push : pushWords vs s = .next t
  pushed_sp : t.reg .sp = s.reg .sp - BitVec.ofNat 16 (2 * vs.length)
  above : ∀ a, vs = [] ∨ (s.reg .sp).toNat + 2 ≤ a → t.byteAt a = s.byteAt a
  pop : popWords r vs.length t = some (vs.reverse, u)
  popped_sp : u.reg .sp = s.reg .sp
  memory : SameMemory t u
  cfg : u.cfg = s.cfg

theorem lastInFirstOut_nil (r : Reg) (s : State) : LastInFirstOut r [] s s s where
  push := rfl
  pushed_sp := (BitVec.sub_zero _).symm
  above _ _ := rfl
  pop := rfl
  popped_sp := rfl
  memory := SameMemory.refl s
  cfg := rfl

/-- SP does not wrap below zero while a further word still fits. -/
theorem toNat_pushed_sp (v : Word) (h : 2 ≤ (s.reg .sp).toNat) :
    ((s.pushed v).reg .sp).toNat + 2 = (s.reg .sp).toNat := by
  have hle : (2 : Word) ≤ s.reg .sp := h
  rw [State.pushed_reg_sp, BitVec.toNat_sub_of_le hle]
  exact Nat.sub_add_cancel h

/-- The outer push and pop around a run that ends with SP where the push left it. -/
theorem LastInFirstOut.cons {r : Reg} {v : Word} {vs : List Word} (hr : r ≠ .sp)
    (hfits : s.fits (s.reg .sp).toNat 2) (hdepth : vs = [] ∨ 2 ≤ (s.reg .sp).toNat)
    (h : LastInFirstOut r vs (s.pushed v) t u) : ∃ x, LastInFirstOut r (v :: vs) s t x := by
  have habove (a : Nat) (ha : (s.reg .sp).toNat ≤ a) : t.byteAt a = (s.pushed v).byteAt a :=
    h.above a (hdepth.imp_right fun hsp => (toNat_pushed_sp v hsp).le.trans ha)
  have hslot : u.reg .sp + 2 = s.reg .sp := by rw [h.popped_sp, State.pushed_reg_sp_add_two]
  have hfits' : u.fits (s.reg .sp).toNat 2 := by
    rw [State.fits, h.cfg]
    exact hfits
  obtain ⟨x, hpop, hword, hsp, hmem, hcfg⟩ := exec_pop_at r hslot hfits'
  have hgives : x.reg r = v := by
    rw [hword, h.memory.wordAt, wordAt_eq, habove _ le_rfl, habove _ (Nat.le_succ _), ← wordAt_eq,
      State.pushed_wordAt]
  refine ⟨x, ?_, ?_, fun a ha => ?_, ?_, hsp hr, fun a => (hmem a).trans (h.memory a),
    hcfg.trans h.cfg⟩
  · rw [pushWords_cons hfits, h.push]
  · rw [h.pushed_sp, State.pushed_reg_sp, List.length_cons, Nat.mul_succ, Nat.add_comm,
      BitVec.ofNat_add, sub_sub]
    rfl
  · have ha : (s.reg .sp).toNat + 2 ≤ a := ha.resolve_left (List.cons_ne_nil _ _)
    rw [habove a (by omega), pushed_sameMemoryBut s v a (.inr ha)]
  · rw [List.length_cons, popWords_append_last h.pop hpop, hgives, List.reverse_cons]

theorem exists_lastInFirstOut {r : Reg} (hr : r ≠ .sp) (vs : List Word) (s : State)
    (hfits : vs ≠ [] → s.fits (s.reg .sp).toNat 2) (hdepth : 2 * vs.length ≤ (s.reg .sp).toNat + 2) :
    ∃ t u, LastInFirstOut r vs s t u := by
  induction vs generalizing s with
  | nil => exact ⟨s, s, lastInFirstOut_nil r s⟩
  | cons v vs ih =>
    replace hfits := hfits (List.cons_ne_nil _ _)
    rw [List.length_cons] at hdepth
    by_cases hvs : vs = []
    · subst hvs
      obtain ⟨x, hx⟩ := (lastInFirstOut_nil r (s.pushed v)).cons hr hfits (.inl rfl)
      exact ⟨_, x, hx⟩
    · have hpos : 0 < vs.length := List.length_pos_iff.mpr hvs
      have hsp : 2 ≤ (s.reg .sp).toNat := by omega
      have hnext := toNat_pushed_sp v hsp
      have hfits' : (s.pushed v).fits ((s.pushed v).reg .sp).toNat 2 := by
        rw [State.fits, hnext]
        exact (Nat.le_add_right _ 2).trans hfits
      obtain ⟨t, u, hrun⟩ := ih (s.pushed v) (fun _ => hfits') (by omega)
      obtain ⟨x, hx⟩ := hrun.cons hr hfits (.inr hsp)
      exact ⟨t, x, hx⟩

/-- Settles O48, by induction on the words: each push and its pop enclose the run of the later ones. -/
theorem stackIsLastInFirstOut : Obligations.StackIsLastInFirstOut := by
  intro vs s r hr hfits hdepth
  obtain ⟨t, u, h⟩ := exists_lastInFirstOut hr vs s (fun _ => hfits) hdepth
  exact ⟨t, u, h.push, h.pushed_sp, h.pop, h.popped_sp, h.memory⟩

end Sys2Proof.Machine
end

section
/-! The driver's transactions (spec/45_host_interface.md): each transaction's outcomes said once, and what follows
for sequences of them. -/

namespace Sys2Proof.Machine

variable {x : Session}

/-! ### STEP -/

theorem Session.transact_step_of_fault {f : Fault} (h : step x.machine = .fault f) :
    x.transact .step = ({ x with stepped := true }, .fault f) := by
  rw [Session.transact, stepTransaction, h]

/-- Settles O51, by induction on the number of STEPs: the engine a faulted STEP leaves faults again. -/
theorem faultedStepRepeatsForever : Obligations.FaultedStepRepeatsForever := by
  intro x f n h
  induction n generalizing x with
  | zero => rw [List.replicate_one, Session.run, Session.transact_step_of_fault h]; rfl
  | succ n ih =>
    rw [List.replicate_succ, Session.run, Session.transact_step_of_fault h,
      ih { x with stepped := true } h]
    rfl

/-! ### Inspection -/

theorem registerOfSelector_number (r : Reg) : registerOfSelector r.number = some r := by
  rw [registerOfSelector, if_pos r.number_lt, Reg.ofNumber_number]

theorem registerOfSelector_of_le {n : Nat} (h : 12 ≤ n) : registerOfSelector n = none :=
  if_neg (Nat.not_lt_of_le h)

theorem readMem_of_fits {s : State} {a n : Nat} (h : s.fits a n) :
    readMem s a n = .ok ((List.range n).map fun k => s.byteAt (a + k)) := if_pos (inRange_iff.mpr h)

theorem readMem_of_not_fits {s : State} {a n : Nat} (h : ¬ s.fits a n) :
    readMem s a n = .error (.addressError a n .read) := if_neg (inRange_iff.not.mpr h)

/-- Settles O52. -/
theorem inspectionReadsAndChangesNothing : Obligations.InspectionReadsAndChangesNothing := by
  intro x sel a n
  refine ⟨fun r hr => ?knownRegister, fun hsel => ?unknown, fun hfits => ?bytes, fun hfits => ?outOfRange⟩
  case knownRegister => rw [← hr, Session.transact, readReg, registerOfSelector_number]
  case unknown => rw [Session.transact, readReg, registerOfSelector_of_le hsel]
  case bytes =>
    refine ⟨_, by rw [Session.transact, readMem_of_fits hfits], by simp, fun k hk => ?_⟩
    rw [List.getD_eq_getElem _ _ (by simpa using hk), List.getElem_map, List.getElem_range]
  case outOfRange => rw [Session.transact, readMem_of_not_fits hfits]

/-! ### LOAD -/

theorem Session.transact_load_of_stepped (a : Nat) (v : Byte) (h : x.stepped = true) :
    x.transact (.load a v) = (x, .refused .loadAfterFirstStep) := if_pos h

theorem Session.transact_load_of_fits {a : Nat} (v : Byte) (h : x.stepped = false)
    (hfits : x.machine.fits a 1) :
    x.transact (.load a v) = ({ x with machine := x.machine.setByte a v }, .ok) := by
  rw [Session.transact, if_neg (Bool.eq_false_iff.mp h), loadTransaction, write8_of_fits hfits]

theorem Session.transact_load_of_not_fits {a : Nat} (v : Byte) (h : x.stepped = false)
    (hfits : ¬ x.machine.fits a 1) :
    x.transact (.load a v) = (x, .fault (.addressError a 1 .write)) := by
  rw [Session.transact, if_neg (Bool.eq_false_iff.mp h), loadTransaction, write8_of_not_fits hfits]

/-- Settles O53. -/
theorem loadWritesOneByteBeforeTheFirstStep : Obligations.LoadWritesOneByteBeforeTheFirstStep := by
  intro x a v
  refine ⟨fun hstepped hfits => ?_, Session.transact_load_of_not_fits v,
    Session.transact_load_of_stepped a v⟩
  exact ⟨_, Session.transact_load_of_fits v hstepped hfits, hstepped,
    State.byteAt_setByte_same x.machine a v, setByte_sameMemoryBut x.machine a v, rfl, rfl⟩

/-- A LOAD at the address is in contract and in range. -/
def Session.Accepts (x : Session) (a : Nat) : Prop := x.stepped = false ∧ x.machine.fits a 1

/-- The engine a LOAD leaves. -/
def Session.loaded (x : Session) (a : Nat) (v : Byte) : Session := (x.transact (.load a v)).1

theorem Session.loaded_of_accepts {a : Nat} (v : Byte) (h : x.Accepts a) :
    x.loaded a v = { x with machine := x.machine.setByte a v } := by
  obtain ⟨hstepped, hfits⟩ := h
  rw [Session.loaded, Session.transact_load_of_fits v hstepped hfits]

theorem Session.loaded_of_not_accepts {a : Nat} (v : Byte) (h : ¬ x.Accepts a) : x.loaded a v = x := by
  unfold Session.loaded
  cases hstepped : x.stepped with
  | true => rw [Session.transact_load_of_stepped a v hstepped]
  | false => rw [Session.transact_load_of_not_fits v hstepped fun hfits => h ⟨hstepped, hfits⟩]

theorem Session.accepts_loaded (a b : Nat) (v : Byte) : (x.loaded a v).Accepts b ↔ x.Accepts b := by
  by_cases h : x.Accepts a
  · rw [Session.loaded_of_accepts v h]
    rfl
  · rw [Session.loaded_of_not_accepts v h]

/-- In canonical memory, writes of two bytes can be exchanged. -/
theorem State.setByte_comm {s : State} {a b : Nat} (v w : Byte) (hwf : s.mem.wf = true) (hab : a ≠ b) :
    (s.setByte a v).setByte b w = (s.setByte b w).setByte a v := by
  have hmem : (s.mem.setByte a v).setByte b w = (s.mem.setByte b w).setByte a v := by
    refine Memory.eq_of_reads_alike (Memory.wf_setByte _ _ (Memory.wf_setByte _ _ hwf))
      (Memory.wf_setByte _ _ (Memory.wf_setByte _ _ hwf)) fun c => ?_
    simp only [Memory.byteAt_setByte]
    by_cases hc : c = a
    · rw [if_pos hc, if_pos hc, if_neg fun hb => hab (hc.symm.trans hb)]
    · rw [if_neg hc, if_neg hc]
  exact congrArg (fun m => { s with mem := m }) hmem

/-- In canonical memory, the later of two writes of one byte is all that is left of them. -/
theorem State.setByte_setByte {s : State} (a : Nat) (v w : Byte) (hwf : s.mem.wf = true) :
    (s.setByte a v).setByte a w = s.setByte a w := by
  have hmem : (s.mem.setByte a v).setByte a w = s.mem.setByte a w := by
    refine Memory.eq_of_reads_alike (Memory.wf_setByte _ _ (Memory.wf_setByte _ _ hwf))
      (Memory.wf_setByte _ _ hwf) fun c => ?_
    simp only [Memory.byteAt_setByte]
    split_ifs <;> rfl
  exact congrArg (fun m => { s with mem := m }) hmem

theorem Session.loaded_comm {a b : Nat} (v w : Byte) (hwf : x.machine.mem.wf = true) (hab : a ≠ b) :
    (x.loaded a v).loaded b w = (x.loaded b w).loaded a v := by
  by_cases ha : x.Accepts a
  · by_cases hb : x.Accepts b
    · rw [Session.loaded_of_accepts w ((Session.accepts_loaded a b v).mpr hb),
        Session.loaded_of_accepts v ((Session.accepts_loaded b a w).mpr ha),
        Session.loaded_of_accepts v ha, Session.loaded_of_accepts w hb]
      exact congrArg (fun s => { x with machine := s }) (State.setByte_comm v w hwf hab)
    · rw [Session.loaded_of_not_accepts w ((Session.accepts_loaded a b v).not.mpr hb),
        Session.loaded_of_not_accepts w hb]
  · rw [Session.loaded_of_not_accepts v ((Session.accepts_loaded b a w).not.mpr ha),
      Session.loaded_of_not_accepts v ha]

theorem Session.loaded_loaded (a : Nat) (v w : Byte) (hwf : x.machine.mem.wf = true) :
    (x.loaded a v).loaded a w = x.loaded a w := by
  by_cases ha : x.Accepts a
  · rw [Session.loaded_of_accepts w ((Session.accepts_loaded a a v).mpr ha),
      Session.loaded_of_accepts v ha, Session.loaded_of_accepts w ha]
    exact congrArg (fun s => { x with machine := s }) (State.setByte_setByte a v w hwf)
  · rw [Session.loaded_of_not_accepts v ha]

/-- Settles O54: canonical memory makes memories that read alike the same data. -/
theorem loadsCommute : Obligations.LoadsCommute := by
  intro x a b v w hwf
  obtain ⟨-, hmem, -⟩ := hwf
  exact ⟨Session.loaded_comm v w hmem, Session.loaded_loaded a v w hmem⟩

/-! ### What every transaction keeps -/

theorem Session.transact_readReg_fst (x : Session) (n : Nat) : (x.transact (.readReg n)).1 = x := by
  rw [Session.transact]
  split <;> rfl

theorem Session.transact_readMem_fst (x : Session) (a n : Nat) : (x.transact (.readMem a n)).1 = x := by
  rw [Session.transact]
  split <;> rfl

theorem stepTransaction_keeps_wf {s : State} (hwf : s.wf) :
    (stepTransaction s).1.wf ∧ (stepTransaction s).1.cfg = s.cfg := by
  unfold stepTransaction
  split
  case h_1 t h => exact stepKeepsWellFormed s t hwf h
  all_goals exact ⟨hwf, rfl⟩

/-- Settles O55, by cases on the transaction: inspection changes nothing, LOAD writes at most one existing byte,
and STEP is O18's or keeps the saved state. -/
theorem transactionsKeepTheEngineWellFormed : Obligations.TransactionsKeepTheEngineWellFormed := by
  intro x m hwf
  cases m with
  | readReg n =>
    rw [Session.transact_readReg_fst]
    exact ⟨hwf, rfl, fun _ => rfl, fun _ _ => rfl⟩
  | readMem a n =>
    rw [Session.transact_readMem_fst]
    exact ⟨hwf, rfl, fun _ => rfl, fun _ _ => rfl⟩
  | step =>
    obtain ⟨hwf', hcfg⟩ := stepTransaction_keeps_wf hwf
    exact ⟨hwf', hcfg, fun h => absurd rfl h, fun h => absurd rfl h⟩
  | load a v =>
    rw [← Session.loaded]
    by_cases h : x.Accepts a
    · rw [Session.loaded_of_accepts v h]
      obtain ⟨hstepped, hfits⟩ := h
      exact ⟨State.wf_setByte hwf hfits, rfl, fun _ => rfl,
        fun _ h => absurd h (Bool.eq_false_iff.mp hstepped)⟩
    · rw [Session.loaded_of_not_accepts v h]
      exact ⟨hwf, rfl, fun _ => rfl, fun _ _ => rfl⟩

end Sys2Proof.Machine
end
